-- ==== Sys2Proof/Word.lean ====
section
/-! DEFINITION. The widths the spec fixes: the 32-bit command word (R70), its two fields (R71) and the bit. -/

namespace Sys2Proof

/-- A command word: "one 32-bit word, delivered to the block whole" (R70). -/
abbrev Word := BitVec 32

/-- The operation code, bits 31:24 of a command word (R71). -/
abbrev OpCode := BitVec 8

/-- The operand field, bits 23:0 of a command word (R71). -/
abbrev Arg := BitVec 24

/-- A logical bit (R14, R163): `true` is 1 and `false` is 0. -/
abbrev Bit := Bool

end Sys2Proof
end

