-- ==== Sys2Proof/Syntax.lean ====
section
/-! DEFINITION. The ten commands (R73), one constructor per row of the opcode table, and their four operand forms (R72). -/

namespace Sys2Proof

/-- A command with its operand. The constraint length and the polynomial are the integer `arg` itself (R71, R72);
`WellFormed` says which integers fit the field. -/
inductive Instr where
  /-- CFG.BEGIN k (R95). -/
  | cfgBegin (k : Nat)
  /-- CFG.POLY p (R96). -/
  | cfgPoly (p : Nat)
  /-- CFG.COMMIT (R98). -/
  | cfgCommit
  /-- CFG.NPAR (R99). -/
  | cfgNpar
  /-- ENC.START (R111). -/
  | encStart
  /-- ENC.BIT b (R112). -/
  | encBit (b : Bit)
  /-- DEC.START (R122). -/
  | decStart
  /-- DEC.BIT b (R123). -/
  | decBit (b : Bit)
  /-- DEC.FLUSH (R124). -/
  | decFlush
  /-- DEC.TRACE (R142). -/
  | decTrace
deriving DecidableEq, Repr

/-- The operand forms of R72. -/
inductive OperandForm where
  /-- `arg` must be 0. -/
  | none
  /-- `arg` must be 0 or 1. -/
  | bit
  /-- Any 24-bit value: a constraint length. -/
  | k
  /-- Any 24-bit value: a generator polynomial. -/
  | p
deriving DecidableEq, Repr

/-- Why a word spells no command (R74, R75). -/
inductive Illegal where
  /-- `op` is none of the ten values of R73. -/
  | reservedOp
  /-- `arg` is not 0 with a command of the operand form "none". -/
  | argNotZero
  /-- `arg` is above 1 with a command of the operand form "bit". -/
  | argNotBit
deriving DecidableEq, Repr

/-- What a command word spells: decoding is total (R74). -/
inductive Decoded where
  | command (i : Instr)
  | illegal (why : Illegal)
deriving DecidableEq, Repr

end Sys2Proof
end

