-- ==== Sys2Proof/Decode.lean ====
section
/-! DEFINITION. Command words: the field split (R71), the decoder (R74), the encoder, and the opcode map as a table of
match and mask values (R73). -/

namespace Sys2Proof

/-- `op = w[31:24]` (R71, R74). -/
def opField (w : Word) : OpCode := w.extractLsb' 24 8

/-- `arg = w[23:0]` (R71, R74). -/
def argField (w : Word) : Arg := w.extractLsb' 0 24

/-- The word with the given fields (R71). -/
def mkWord (op : OpCode) (arg : Arg) : Word := op ++ arg

/-- Operand form "none": a non-zero `arg` is illegal (R72, R74). -/
def decodeNone (arg : Arg) (i : Instr) : Decoded :=
  if arg = 0 then .command i else .illegal .argNotZero

/-- Operand form "bit": the operand is `arg[0]`, and an `arg` above 1 is illegal (R72, R74). -/
def decodeBit (arg : Arg) (mk : Bit → Instr) : Decoded :=
  if arg.toNat ≤ 1 then .command (mk (arg.getLsbD 0)) else .illegal .argNotBit

/-- Operand forms "k" and "p": the operand is `arg` itself, any 24-bit value (R71, R72). -/
def decodeNumber (arg : Arg) (mk : Nat → Instr) : Decoded :=
  .command (mk arg.toNat)

/-- Decoding a command word is total (R74); the op values are those of R73 and every other one is reserved (R75). -/
def decode (w : Word) : Decoded :=
  match opField w with
  | 0x01#8 => decodeNumber (argField w) .cfgBegin
  | 0x02#8 => decodeNumber (argField w) .cfgPoly
  | 0x03#8 => decodeNone (argField w) .cfgCommit
  | 0x04#8 => decodeNone (argField w) .cfgNpar
  | 0x10#8 => decodeNone (argField w) .encStart
  | 0x11#8 => decodeBit (argField w) .encBit
  | 0x20#8 => decodeNone (argField w) .decStart
  | 0x21#8 => decodeBit (argField w) .decBit
  | 0x22#8 => decodeNone (argField w) .decFlush
  | 0x23#8 => decodeNone (argField w) .decTrace
  | _ => .illegal .reservedOp

/-- The `op` value of a command (R73). -/
def Instr.opCode : Instr → OpCode
  | .cfgBegin _ => 0x01#8
  | .cfgPoly _ => 0x02#8
  | .cfgCommit => 0x03#8
  | .cfgNpar => 0x04#8
  | .encStart => 0x10#8
  | .encBit _ => 0x11#8
  | .decStart => 0x20#8
  | .decBit _ => 0x21#8
  | .decFlush => 0x22#8
  | .decTrace => 0x23#8

/-- The `arg` value of a command (R72). -/
def Instr.arg : Instr → Arg
  | .cfgBegin k => BitVec.ofNat 24 k
  | .cfgPoly p => BitVec.ofNat 24 p
  | .cfgCommit => 0#24
  | .cfgNpar => 0#24
  | .encStart => 0#24
  | .encBit b => BitVec.ofNat 24 b.toNat
  | .decStart => 0#24
  | .decBit b => BitVec.ofNat 24 b.toNat
  | .decFlush => 0#24
  | .decTrace => 0#24

/-- The word that spells a well-formed command (R71, R73). -/
def encode (i : Instr) : Word := mkWord i.opCode i.arg

/-- One row of the opcode map (R73). -/
structure OpRow where
  mnemonic : String
  form : OperandForm
  pattern : Word
  mask : Word
deriving DecidableEq, Repr

/-- The opcode map, word for word as R73 gives it. -/
def opTable : List OpRow :=
  [ { mnemonic := "CFG.BEGIN",  form := .k,    pattern := 0x01000000#32, mask := 0xFF000000#32 },
    { mnemonic := "CFG.POLY",   form := .p,    pattern := 0x02000000#32, mask := 0xFF000000#32 },
    { mnemonic := "CFG.COMMIT", form := .none, pattern := 0x03000000#32, mask := 0xFFFFFFFF#32 },
    { mnemonic := "CFG.NPAR",   form := .none, pattern := 0x04000000#32, mask := 0xFFFFFFFF#32 },
    { mnemonic := "ENC.START",  form := .none, pattern := 0x10000000#32, mask := 0xFFFFFFFF#32 },
    { mnemonic := "ENC.BIT",    form := .bit,  pattern := 0x11000000#32, mask := 0xFFFFFFFE#32 },
    { mnemonic := "DEC.START",  form := .none, pattern := 0x20000000#32, mask := 0xFFFFFFFF#32 },
    { mnemonic := "DEC.BIT",    form := .bit,  pattern := 0x21000000#32, mask := 0xFFFFFFFE#32 },
    { mnemonic := "DEC.FLUSH",  form := .none, pattern := 0x22000000#32, mask := 0xFFFFFFFF#32 },
    { mnemonic := "DEC.TRACE",  form := .none, pattern := 0x23000000#32, mask := 0xFFFFFFFF#32 } ]

/-- "A word `w` spells the command of a row when `w & mask = match`" (R73). -/
def OpRow.spells (r : OpRow) (w : Word) : Bool := decide (w &&& r.mask = r.pattern)

/-- The mnemonic of a command (R73, R80). -/
def Instr.mnemonic : Instr → String
  | .cfgBegin _ => "CFG.BEGIN"
  | .cfgPoly _ => "CFG.POLY"
  | .cfgCommit => "CFG.COMMIT"
  | .cfgNpar => "CFG.NPAR"
  | .encStart => "ENC.START"
  | .encBit _ => "ENC.BIT"
  | .decStart => "DEC.START"
  | .decBit _ => "DEC.BIT"
  | .decFlush => "DEC.FLUSH"
  | .decTrace => "DEC.TRACE"

/-- The instruction the decoder reads from a table row's bits. A command is one 32-bit word and nothing in the block is a
byte (R51, R70), so the row's numbering of bits is the word's own; bits from `nbits` up are 0. -/
def decodeTableWord (nbits w : Nat) : Option Instr :=
  match decode (BitVec.ofNat 32 (w % 2 ^ nbits)) with
  | .command i => some i
  | .illegal _ => none

end Sys2Proof
end

