-- ==== Sys2Proof/Machine/Operands.lean ====
section
/-! DEFINITION. The pure functions on operands, states and table indexes (R13, R17, R52, R90 to R92, R121): the integers are
naturals of unbounded width and every shift is logical (R13). Also which operand form and which mode each command has (R72,
R73). -/

namespace Sys2Proof.Machine

/-- `S = 2^(K-1)`, the number of states (R7). -/
def numStates (k : Nat) : Nat := 2 ^ (k - 1)

/-- The number of bits of `x` below position `width` that are 1. -/
def popcountBelow : Nat → Nat → Nat
  | 0, _ => 0
  | width + 1, x => popcountBelow width x + (x.testBit width).toNat

/-- `popcount(x) = number of j with bit(x, j) = 1` (R17): no bit of `x` stands above its highest one. -/
def popcount (x : Nat) : Nat := popcountBelow (x.log2 + 1) x

/-- `parity(x) = popcount(x) mod 2`, "the XOR of all bits of x" (R17). -/
def parity (x : Nat) : Bit := popcount x % 2 == 1

/-- `rev_K(p) = sum over j in [0, K) of bit(p, K-1-j) << j` (R17, R90): bit `K-1` of `p` becomes bit 0, and the other `K-1`
bits, reversed among themselves, stand above it. -/
def revK : Nat → Nat → Nat
  | 0, _ => 0
  | k + 1, p => (p.testBit k).toNat + 2 * revK k p

/-- `hd(a, b)`: the number of indexes at which two sequences of one length differ (R17). -/
def hd : List Bit → List Bit → Nat
  | [], _ => 0
  | _, [] => 0
  | a :: as, b :: bs => (a != b).toNat + hd as bs

/-- The combined index `i = state | (input << (K-1))` (R52). -/
def combinedIndex (k state : Nat) (input : Bit) : Nat := state ||| (input.toNat <<< (k - 1))

/-- `NextState(state, input) = (state >> 1) | (input << (K-2))` (R92). -/
def nextState (k state : Nat) (input : Bit) : Nat := (state >>> 1) ||| (input.toNat <<< (k - 2))

/-- `Entry(i, j) = parity(rev_K(G[j]) & i)`, for the polynomial `p = G[j]` (R91). -/
def entry (k p i : Nat) : Bit := parity (revK k p &&& i)

/-- The output table of a code: for every combined index in ascending order, one parity bit per polynomial in polynomial order
(R91, R98). -/
def outputTable (k : Nat) (polys : List Nat) : List (List Bit) :=
  (List.range (2 ^ k)).map fun i => polys.map fun p => entry k p i

/-- `mask = 2^(K-2) - 1` (R121). -/
def stateMask (k : Nat) : Nat := 2 ^ (k - 2) - 1

/-- The even predecessor `s0 = ((t & mask) << 1) | 0` (R121). -/
def pred0 (k t : Nat) : Nat := ((t &&& stateMask k) <<< 1) ||| 0

/-- The odd predecessor `s1 = ((t & mask) << 1) | 1` (R121). -/
def pred1 (k t : Nat) : Nat := ((t &&& stateMask k) <<< 1) ||| 1

/-- Bit `K-2` of a state: "the top bit of a (K-1)-bit state", which is `t >> (K-2)` of a state `t` below `S` and is the input
bit that drives a predecessor into it (R121, R141). -/
def topBit (k t : Nat) : Bit := t.testBit (k - 2)

/-- A short group "zero-padded on the right to full group length" (R56, R124). -/
def padGroup (n : Nat) (bits : List Bit) : List Bit := bits ++ List.replicate (n - bits.length) false

end Sys2Proof.Machine
end

