-- ==== Sys2Proof/Config.lean ====
section
/-! DEFINITION. The three named parameters of an instance of the block (R8, R9, D3 to D5).

They are plain data, and the machine carries them in a field of its state that no command writes, so that a claim about
every state is a claim about every instance (assumption log entry 1). -/

namespace Sys2Proof

/-- "a positive integer or the value `unbounded`" (R9). -/
inductive Bound where
  | unbounded
  | atMost (max : Nat)
deriving DecidableEq, Repr

/-- `KMAX`, `NMAX` and `TMAX` (R8, R9). -/
structure Config where
  /-- `KMAX`: the largest constraint length the instance accepts (R8). -/
  kmax : Nat
  /-- `NMAX`: the largest polynomial count (R9). -/
  nmax : Bound
  /-- `TMAX`: the largest number of trellis columns of one decode call (R9). -/
  tmax : Bound
deriving DecidableEq, Repr

/-- A bound is positive when it is a bound at all (R9). -/
def Bound.positive : Bound → Bool
  | .unbounded => true
  | .atMost m => decide (1 ≤ m)

/-- The constraints of R8 and R9: `2 ≤ KMAX ≤ 24`, `NMAX ≥ 1`, `TMAX ≥ 1`. -/
structure Config.WellFormed (c : Config) : Prop where
  kmax_ge : 2 ≤ c.kmax
  kmax_le : c.kmax ≤ 24
  nmax_pos : c.nmax.positive = true
  tmax_pos : c.tmax.positive = true

/-- The instance that reproduces "the document's functions on every input the encoding can express":
`KMAX = 24`, `NMAX = unbounded`, `TMAX = unbounded` (92_eei_decisions.md, Open parameters). -/
def Config.document : Config :=
  { kmax := 24, nmax := .unbounded, tmax := .unbounded }

end Sys2Proof
end

