-- ==== Sys2Proof/Machine/State.lean ====
section
/-! DEFINITION. The architectural state (10_state.md), the host's moves (R203), and the state after reset (R191 to R193). -/

namespace Sys2Proof.Machine

/-- `MODE`: which commands the block accepts (R20). -/
inductive Mode where
  /-- 0, after reset: no code is configured. -/
  | unconfigured
  /-- 1, between CFG.BEGIN and CFG.COMMIT. -/
  | configuring
  /-- 2: a codec exists. -/
  | ready
  /-- 3: a fault was raised; every command is ignored until reset. -/
  | failed
deriving DecidableEq, Repr

/-- The seven causes of a fault (R170). -/
inductive Cause where
  | emptyPolySet
  | nonpositivePoly
  | polyTooWide
  | badConstraint
  | illegalCommand
  | wrongMode
  | capacity
deriving DecidableEq, Repr

/-- The two kinds of exception a cause belongs to (R170). -/
inductive ExceptionKind where
  /-- The document's construction failure. -/
  | preconditionViolation
  /-- The hardware framing's own failure. -/
  | commandFault
deriving DecidableEq, Repr

/-- `Metric = ℕ ∪ {INF}` (R10): a Hamming-distance accumulator of unbounded size, or "not yet reachable". -/
inductive Metric where
  | fin (n : Nat)
  | inf
deriving DecidableEq, Repr

/-- The host's three moves (R203). -/
inductive HostMove where
  /-- Issue one command word, any word in any mode. -/
  | command (w : Word)
  /-- Assert reset between two commands (R190). -/
  | reset
  /-- Read `MODE`, `ERR`, `ERRCMD`, `RES`, `ENC_OUT` and `DEC_OUT`. -/
  | read
deriving DecidableEq, Repr

/-- All the state of the block (10_state.md section 1), the instance's parameters, and the host's moves that the block has
not taken yet. The two hidden pieces of R38 are local values of the meanings. -/
structure State where
  /-- `MODE` (R20). -/
  mode : Mode
  /-- `ERR`, the 3-bit cause code of the fault, or 0 (R21). -/
  err : BitVec 3
  /-- `ERRCMD`, the command word that raised the fault, or 0 (R22). -/
  errcmd : Word
  /-- `RES`, the result register (R24). -/
  res : Nat
  /-- `K`, the constraint length (R23). -/
  k : Nat
  /-- `N`, the number of polynomials delivered so far (R23). -/
  n : Nat
  /-- `G[0..N-1]`, the polynomials in delivery order (R23). -/
  g : List Nat
  /-- `OUT[0..2^K-1]`, the output table (R31). -/
  out : List (List Bit)
  /-- `ES`, the encoder's shift register (R25). -/
  es : Nat
  /-- `ENC_OUT`, the encoder's output stream, oldest bit first (R32). -/
  encOut : List Bit
  /-- `GB`, the group buffer, in arrival order (R26). -/
  gb : List Bit
  /-- `PM[0..S-1]`, the path-metric vector (R33). -/
  pm : List Metric
  /-- `TR`, the trellis: one column of predecessor states per time step (R35). `T` is its length (R27). -/
  tr : List (List Nat)
  /-- `DEC_OUT`, the decoder's output stream, oldest bit first (R37). -/
  decOut : List Bit
  /-- The instance's parameters `KMAX`, `NMAX`, `TMAX` (R8, R9): no command writes them (log entry 1). -/
  config : Config
  /-- The host's moves not taken yet, next one first (R203): the model's own field (log entry 3). -/
  pending : List HostMove
deriving DecidableEq, Repr

/-- The machine stops with a fault. NO CONSTRUCTOR: every fault of the spec is taken as the sticky fault entry of R176, which
is a next state, and there is no access fault (R57), so nothing raises a value of this type. Safe: no run is cut short. -/
inductive Fault where
deriving DecidableEq, Repr

/-- No meaning for an instruction. -/
inductive Refusal where
  /-- Raised by an arm of `exec` whose instruction has no meaning yet. No arm does: every row of the opcode table has its
  meaning. Safe. -/
  | notModelled (mnemonic : String)
deriving DecidableEq, Repr

/-- The state after reset of an instance with parameters `c`. `MODE`, `ERR`, `ERRCMD`, `RES` and the two streams are as R191
and R192 say. `K`, `N`, `G`, `OUT`, `ES`, `GB`, `PM`, `TR` are unspecified after reset (R193) and are given 0 or the empty
sequence here: DESIGN CHOICE, log entry 2. -/
def State.resetWith (c : Config) : State :=
  { mode := .unconfigured
    err := 0
    errcmd := 0
    res := 0
    k := 0
    n := 0
    g := []
    out := []
    es := 0
    encOut := []
    gb := []
    pm := []
    tr := []
    decOut := []
    config := c
    pending := [] }

/-- The state right after reset of the instance with the document's unbounded parameters (log entry 1). -/
def State.reset : State := State.resetWith Config.document

end Sys2Proof.Machine
end

