-- ==== Sys2Proof/Machine/Flags.lean ====
section
/-! DEFINITION. The block has no flags (R30). What takes their place is here: the guarded addition and the order of metrics on
which the add-compare-select and the final scan decide (R17, R127, R128). -/

namespace Sys2Proof.Machine

/-- `add_inf(m, d)`: `INF` stays `INF` and no addition takes place, otherwise the exact sum (R17, R127). -/
def addInf : Metric → Nat → Metric
  | .inf, _ => .inf
  | .fin m, d => .fin (m + d)

/-- `le_inf(a, b)`, with `INF` the greatest element and equal to itself (R17, R34). -/
def leInf : Metric → Metric → Bool
  | _, .inf => true
  | .inf, .fin _ => false
  | .fin a, .fin b => decide (a ≤ b)

/-- `lt_inf(a, b) = not le_inf(b, a)` (R17). -/
def ltInf (a b : Metric) : Bool := !leInf b a

/-- Compare-select with its tie rule: the first candidate wins when `le_inf(pm1, pm2)`, and the outcome is kept as the pair of
the new metric and the chosen predecessor (R126, R128, R30). -/
def compareSelect (pm1 : Metric) (s0 : Nat) (pm2 : Metric) (s1 : Nat) : Metric × Nat :=
  if leInf pm1 pm2 then (pm1, s0) else (pm2, s1)

end Sys2Proof.Machine
end

