-- ==== Sys2Proof/Machine/Trellis.lean ====
section
/-! DEFINITION. The forward pass and the traceback as functions of the constraint length, the output function, a metric
vector and a trellis (R120, R125, R126, R141). The machine's commands and the document's `Decode` (R154) both use them. -/

namespace Sys2Proof.Machine

/-- An out-of-range read of a metric vector is never made (R57); it is given `INF` here (log entry 7). -/
def metricAt (pm : List Metric) (state : Nat) : Metric := pm.getD state .inf

/-- An out-of-range read of a trellis column is never made (R57); it is given state 0 here (log entry 7). -/
def predecessorAt (column : List Nat) (state : Nat) : Nat := column.getD state 0

/-- The start of a decode call: metric 0 for state 0 and the sentinel elsewhere (R33, R120). -/
def initialMetrics (k : Nat) : List Metric :=
  (List.range (numStates k)).map fun s => if s = 0 then .fin 0 else .inf

/-- The candidate metric of one predecessor: its previous metric plus the branch metric `hd(grp, Output(p, u))` (R125, R126). -/
def candidate (output : Nat → Bit → List Bit) (pm : List Metric) (grp : List Bit) (p : Nat) (u : Bit) : Metric :=
  addInf (metricAt pm p) (hd grp (output p u))

/-- One target state of a trellis step: its new metric and its winning predecessor (R126). -/
def selectPredecessor (k : Nat) (output : Nat → Bit → List Bit) (pm : List Metric) (grp : List Bit) (t : Nat) :
    Metric × Nat :=
  compareSelect
    (candidate output pm grp (pred0 k t) (topBit k t)) (pred0 k t)
    (candidate output pm grp (pred1 k t) (topBit k t)) (pred1 k t)

/-- All target states of a trellis step, each from the metrics of before the step (R62, R126): the buffer `NPM` of R38 and the
column `COL`, paired. -/
def stepColumn (k : Nat) (output : Nat → Bit → List Bit) (pm : List Metric) (grp : List Bit) : List (Metric × Nat) :=
  (List.range (numStates k)).map (selectPredecessor k output pm grp)

/-- The first-minimum scan in ascending order (R141): a later state replaces the best one only when strictly smaller. -/
def bestState (k : Nat) (pm : List Metric) : Nat :=
  (List.range' 1 (numStates k - 1)).foldl
    (fun best s => if ltInf (metricAt pm s) (metricAt pm best) then s else best) 0

/-- The walk from the last column to the first (R141), over the columns last one first: the bits in the order collected (`rv`)
and the state the walk ends in. -/
def walkBack (k : Nat) : List (List Nat) → Nat → List Bit × Nat
  | [], cur => ([], cur)
  | column :: earlier, cur =>
    let (bits, last) := walkBack k earlier (predecessorAt column cur)
    (topBit k cur :: bits, last)

/-- The traceback's result: the collected bits reversed, the bit of time step 0 first (R140, R141). -/
def tracebackBits (k : Nat) (pm : List Metric) (tr : List (List Nat)) : List Bit :=
  (walkBack k tr.reverse (bestState k pm)).1.reverse

end Sys2Proof.Machine
end

