-- ==== Sys2Proof/Machine/Ops.lean ====
section
/-! DEFINITION. The named operations the meanings share: fault entry (R176) and its only return, reset (R190); the checks
every command word goes through (R178); the registers, arrays and streams; the trellis step and the traceback over the state;
taking the host's next move (R203). -/

namespace Sys2Proof

/-- The capacity check `count = bound`, which an unbounded instance never meets (R9, R96, R126). -/
def Bound.isFull : Bound → Nat → Bool
  | .unbounded, _ => false
  | .atMost m, count => count == m

/-- The mode a command is accepted in (R73). -/
def Instr.acceptedIn : Instr → Machine.Mode
  | .cfgBegin _ => .unconfigured
  | .cfgPoly _ => .configuring
  | .cfgCommit => .configuring
  | .cfgNpar => .ready
  | .encStart => .ready
  | .encBit _ => .ready
  | .decStart => .ready
  | .decBit _ => .ready
  | .decFlush => .ready
  | .decTrace => .ready

namespace Machine

/-- The value of `MODE` the host reads (R20). -/
def Mode.code : Mode → BitVec 2
  | .unconfigured => 0
  | .configuring => 1
  | .ready => 2
  | .failed => 3

/-- The cause code written to `ERR` (R170). -/
def Cause.code : Cause → BitVec 3
  | .emptyPolySet => 1
  | .nonpositivePoly => 2
  | .polyTooWide => 3
  | .badConstraint => 4
  | .illegalCommand => 5
  | .wrongMode => 6
  | .capacity => 7

/-- The exception a cause belongs to (R170). -/
def Cause.kind : Cause → ExceptionKind
  | .emptyPolySet => .preconditionViolation
  | .nonpositivePoly => .preconditionViolation
  | .polyTooWide => .preconditionViolation
  | .badConstraint => .preconditionViolation
  | .illegalCommand => .commandFault
  | .wrongMode => .commandFault
  | .capacity => .commandFault

/-- Fault entry (R176): taken from the state before the command, so that none of the command's other writes take place. The
registers whose values R176 leaves unspecified from here on stay as they were (log entry 6). -/
def raise (c : Cause) (w : Word) (s : State) : State :=
  { s with mode := .failed, err := c.code, errcmd := w }

/-- Reset, the only way out of `FAILED` (R179, R190): the state after reset of the same instance; the host's further moves are
the host's, and stay (log entry 5). -/
def hostReset (s : State) : State :=
  { State.resetWith s.config with pending := s.pending }

/-- The checks of R178 around a legal command's own pseudocode: a block in `FAILED` does nothing, a command in another mode than
its own raises `WRONG_MODE`, and a cause its own checks name is raised with nothing else written. -/
def runCommand (i : Instr) (body : State → Except Cause State) (s : State) : Host.Outcome State Fault Refusal :=
  if s.mode = .failed then .next s
  else if s.mode ≠ i.acceptedIn then .next (raise .wrongMode (encode i) s)
  else
    match body s with
    | .ok t => .next t
    | .error c => .next (raise c (encode i) s)

/-- A word that spells no command (R173, R178): ignored in `FAILED`, otherwise `ILLEGAL_COMMAND` whatever the mode. -/
def runIllegal (w : Word) (s : State) : Host.Outcome State Fault Refusal :=
  if s.mode = .failed then .next s else .next (raise .illegalCommand w s)

/-- The polynomials `G[0..N-1]` (R23). -/
def State.polys (s : State) : List Nat := s.g.take s.n

/-- `G[N] <- p ; N <- N + 1` (R96): the elements `G[0..N-1]` are kept (log entry 9). -/
def State.appendPoly (p : Nat) (s : State) : State :=
  { s with g := s.polys ++ [p], n := s.n + 1 }

/-- `Output(state, input) = OUT[state | (input << (K-1))]` (R93). An out-of-range read is never made (R57); it is given the
empty sequence here (log entry 7). -/
def State.output (s : State) (state : Nat) (input : Bit) : List Bit :=
  s.out.getD (combinedIndex s.k state input) []

/-- The encoder context of the start of an Encode call (R111, R195). -/
def State.startEncoder (s : State) : State := { s with es := 0 }

/-- The decoder context of the start of a Decode call (R122, R195). -/
def State.startDecoder (s : State) : State :=
  { s with pm := initialMetrics s.k, tr := [], gb := [] }

/-- `ENC_OUT <- ENC_OUT ++ bits` (R32, R55). -/
def State.emitEncoded (bits : List Bit) (s : State) : State := { s with encOut := s.encOut ++ bits }

/-- `DEC_OUT <- DEC_OUT ++ bits` (R37). -/
def State.emitDecoded (bits : List Bit) (s : State) : State := { s with decOut := s.decOut ++ bits }

/-- `TrellisStep(grp)` (R126): `CAPACITY` when `T = TMAX`, otherwise the whole new vector replaces `PM` at once and the column
is appended to `TR`. -/
def trellisStep (grp : List Bit) (s : State) : Except Cause State :=
  if s.config.tmax.isFull s.tr.length then .error .capacity
  else
    let column := stepColumn s.k s.output s.pm grp
    .ok { s with pm := column.map Prod.fst, tr := s.tr ++ [column.map Prod.snd] }

/-- A trellis step on a complete group, which empties the group buffer (R123, R124). -/
def consumeGroup (grp : List Bit) (s : State) : Except Cause State :=
  match trellisStep grp s with
  | .ok t => .ok { t with gb := [] }
  | .error c => .error c

/-- The padding step that DEC.FLUSH and DEC.TRACE share (R124, R142): nothing when the group buffer is empty. -/
def flushGroup (s : State) : Except Cause State :=
  if s.gb.length > 0 then consumeGroup (padGroup s.n s.gb) s else .ok s

/-- `Traceback()` (R141): the `T` decoded bits go to `DEC_OUT`. -/
def traceback (s : State) : State :=
  s.emitDecoded (tracebackBits s.k s.pm s.tr)

/-- What the host can observe (R12). -/
structure Observation where
  mode : BitVec 2
  err : BitVec 3
  errcmd : Word
  res : Nat
  encOut : List Bit
  decOut : List Bit
deriving DecidableEq, Repr

/-- The host's reading of the block (R12, R203). It is a function of the state and changes nothing (R59). -/
def State.observe (s : State) : Observation :=
  { mode := s.mode.code, err := s.err, errcmd := s.errcmd, res := s.res, encOut := s.encOut, decOut := s.decOut }

/-- The host issues further moves, to be taken after those it has issued before (R61, R203). -/
def State.issue (moves : List HostMove) (s : State) : State :=
  { s with pending := s.pending ++ moves }

/-- The next move is this one (the fetch of `withFetchWord`). -/
def State.issueFirst (move : HostMove) (s : State) : State :=
  { s with pending := move :: s.pending }

/-- The next move and the state without it, or `none` when the host has issued no more (R61, R203). -/
def takeMove (s : State) : Option (HostMove × State) :=
  match s.pending with
  | [] => none
  | move :: later => some (move, { s with pending := later })

end Machine

end Sys2Proof
end

