-- ==== Sys2Proof/Machine/Cfg.lean ====
section
/-! DEFINITION. The configuration unit: CFG.BEGIN, CFG.POLY, CFG.COMMIT, CFG.NPAR (40_configuration.md). -/

namespace Sys2Proof.Machine

/-- CFG.BEGIN k (R95). -/
def beginConfig (k : Nat) (s : State) : Except Cause State :=
  if k < 2 ∨ k > s.config.kmax then .error .badConstraint
  else .ok { s with k := k, n := 0, mode := .configuring }

/-- CFG.POLY p (R96): the checks in the order written. -/
def addPoly (p : Nat) (s : State) : Except Cause State :=
  if p = 0 then .error .nonpositivePoly
  else if p ≥ 2 ^ s.k then .error .polyTooWide
  else if s.config.nmax.isFull s.n then .error .capacity
  else .ok (s.appendPoly p)

/-- CFG.COMMIT (R98). -/
def commitConfig (s : State) : Except Cause State :=
  if s.n = 0 then .error .emptyPolySet
  else
    let built := { s with out := outputTable s.k s.polys, mode := .ready }
    .ok built.startEncoder.startDecoder

/-- CFG.NPAR (R99). -/
def readParityCount (s : State) : Except Cause State := .ok { s with res := s.n }

/-- The meaning of CFG.BEGIN k (R95). -/
def execCfgBegin (k : Nat) (s : State) : Host.Outcome State Fault Refusal :=
  runCommand (.cfgBegin k) (beginConfig k) s

/-- The meaning of CFG.POLY p (R96). -/
def execCfgPoly (p : Nat) (s : State) : Host.Outcome State Fault Refusal :=
  runCommand (.cfgPoly p) (addPoly p) s

/-- The meaning of CFG.COMMIT (R98). -/
def execCfgCommit (s : State) : Host.Outcome State Fault Refusal :=
  runCommand .cfgCommit commitConfig s

/-- The meaning of CFG.NPAR (R99). -/
def execCfgNpar (s : State) : Host.Outcome State Fault Refusal :=
  runCommand .cfgNpar readParityCount s

end Sys2Proof.Machine
end

