-- ==== Sys2Proof/Machine/Enc.lean ====
section
/-! DEFINITION. The encoder unit: ENC.START, ENC.BIT (41_encoder.md). -/

namespace Sys2Proof.Machine

/-- ENC.BIT b (R112): the output is looked up with the state from before the step, then the state advances. -/
def encodeBit (b : Bit) (s : State) : State :=
  { s.emitEncoded (s.output s.es b) with es := nextState s.k s.es b }

/-- The meaning of ENC.START (R111). -/
def execEncStart (s : State) : Host.Outcome State Fault Refusal :=
  runCommand .encStart (fun s => .ok s.startEncoder) s

/-- The meaning of ENC.BIT b (R112). -/
def execEncBit (b : Bit) (s : State) : Host.Outcome State Fault Refusal :=
  runCommand (.encBit b) (fun s => .ok (encodeBit b s)) s

end Sys2Proof.Machine
end

