-- ==== Sys2Proof/Machine/Fwd.lean ====
section
/-! DEFINITION. The decoder's forward pass unit: DEC.START, DEC.BIT, DEC.FLUSH (42_forward_pass.md). -/

namespace Sys2Proof.Machine

/-- DEC.BIT b (R123): the bit that completes a group runs its trellis step at once. -/
def receiveBit (b : Bit) (s : State) : Except Cause State :=
  let grp := s.gb ++ [b]
  if grp.length < s.n then .ok { s with gb := grp } else consumeGroup grp s

/-- The meaning of DEC.START (R122). -/
def execDecStart (s : State) : Host.Outcome State Fault Refusal :=
  runCommand .decStart (fun s => .ok s.startDecoder) s

/-- The meaning of DEC.BIT b (R123). -/
def execDecBit (b : Bit) (s : State) : Host.Outcome State Fault Refusal :=
  runCommand (.decBit b) (receiveBit b) s

/-- The meaning of DEC.FLUSH (R124). -/
def execDecFlush (s : State) : Host.Outcome State Fault Refusal :=
  runCommand .decFlush flushGroup s

end Sys2Proof.Machine
end

