-- ==== Sys2Proof/Machine/Tb.lean ====
section
/-! DEFINITION. The traceback unit: DEC.TRACE (43_traceback.md). -/

namespace Sys2Proof.Machine

/-- DEC.TRACE (R142): the padding step, the traceback, and a fresh decoder context. -/
def endDecode (s : State) : Except Cause State :=
  match flushGroup s with
  | .ok t => .ok (traceback t).startDecoder
  | .error c => .error c

/-- The meaning of DEC.TRACE (R142). -/
def execDecTrace (s : State) : Host.Outcome State Fault Refusal :=
  runCommand .decTrace endDecode s

end Sys2Proof.Machine
end

