-- ==== Sys2Proof/Machine/Dispatch.lean ====
section
/-! DEFINITION. One arm per command of the opcode map (R73). -/

namespace Sys2Proof.Machine

def exec (i : Instr) (s : State) : Host.Outcome State Fault Refusal :=
  match i with
  | .cfgBegin k => Sys2Proof.Machine.execCfgBegin k s
  | .cfgPoly p => Sys2Proof.Machine.execCfgPoly p s
  | .cfgCommit => Sys2Proof.Machine.execCfgCommit s
  | .cfgNpar => Sys2Proof.Machine.execCfgNpar s
  | .encStart => Sys2Proof.Machine.execEncStart s
  | .encBit b => Sys2Proof.Machine.execEncBit b s
  | .decStart => Sys2Proof.Machine.execDecStart s
  | .decBit b => Sys2Proof.Machine.execDecBit b s
  | .decFlush => Sys2Proof.Machine.execDecFlush s
  | .decTrace => Sys2Proof.Machine.execDecTrace s

end Sys2Proof.Machine
end

