-- ==== Sys2Proof/Machine/Fetch.lean ====
section
/-! DEFINITION. What the block does with one move of the host (R203): a command word is decoded and executed (R74, R178), a
reset is taken between two commands (R190), a read changes nothing (R59). -/

namespace Sys2Proof.Machine

/-- Execute one command word (R74, R178). -/
def runWord (w : Word) (s : State) : Host.Outcome State Fault Refusal :=
  match decode w with
  | .command i => exec i s
  | .illegal _ => runIllegal w s

/-- Take one move of the host (R203). -/
def runMove (move : HostMove) (s : State) : Host.Outcome State Fault Refusal :=
  match move with
  | .command w => runWord w s
  | .reset => .next (hostReset s)
  | .read => .next s

end Sys2Proof.Machine
end

