-- ==== Sys2Proof/Machine/Step.lean ====
section
/-! DEFINITION. One step of the machine: the host's next move, taken whole (R11, R61). -/

namespace Sys2Proof.Machine

/-- The block takes the host's next move. When the host has issued no more, the run is over and nothing changes (R203; log
entry 4). -/
def step (s : State) : Host.Outcome State Fault Refusal :=
  match takeMove s with
  | none => .next s
  | some (move, t) => runMove move t

/-- `s` with the command word `w` as the host's next move: the block has no program counter and no program memory (R29), so the
place an instruction is fetched from is the host's queue of moves (log entry 3). -/
def State.withFetchWord (s : State) (nbits w : Nat) : State :=
  s.issueFirst (.command (BitVec.ofNat 32 (w % 2 ^ nbits)))

end Sys2Proof.Machine
end

