-- ==== Sys2Proof/Machine/Public.lean ====
section
/-! DEFINITION. The document's four public operations as functions on whole bit sequences (R150 to R154), and the command
sequences that stand for them (R81 to R84). The machine never calls these functions: statements compare it with them. -/

namespace Sys2Proof.Machine

/-- What `Construct` returns: the configuration (R151). `N` and `OUT` follow from it (R7, R91). -/
structure Codec where
  k : Nat
  polys : List Nat
deriving DecidableEq, Repr

/-- The polynomial checks in list order, each polynomial zero before too wide (R97), with `count` polynomials accepted so far;
the emptiness of the list comes last. -/
def checkPolys (c : Config) (k : Nat) : Nat → List Nat → Option Cause
  | count, [] => if count = 0 then some .emptyPolySet else none
  | count, p :: rest =>
    if p = 0 then some .nonpositivePoly
    else if p ≥ 2 ^ k then some .polyTooWide
    else if c.nmax.isFull count then some .capacity
    else checkPolys c k (count + 1) rest

/-- The cause of a failed construction: the constraint length first, then the polynomials (R97, R151). -/
def constructCause (c : Config) (k : Nat) (polys : List Nat) : Option Cause :=
  if k < 2 ∨ k > c.kmax then some .badConstraint else checkPolys c k 0 polys

/-- `Construct(k, polys)` (R151). -/
def construct (c : Config) (k : Nat) (polys : List Nat) : Except Cause Codec :=
  match constructCause c k polys with
  | some cause => .error cause
  | none => .ok { k := k, polys := polys }

/-- `NumParityBits() = N` (R152). -/
def Codec.numParityBits (c : Codec) : Nat := c.polys.length

/-- `Output(state, input)[j] = Entry(state | (input << (K-1)), j)` (R93). -/
def Codec.output (c : Codec) (state : Nat) (input : Bit) : List Bit :=
  c.polys.map fun p => entry c.k p (combinedIndex c.k state input)

/-- The loop of `Encode(u)` from a given state (R153). -/
def Codec.encodeFrom (c : Codec) : Nat → List Bit → List Bit
  | _, [] => []
  | state, b :: bits => c.output state b ++ c.encodeFrom (nextState c.k state b) bits

/-- `Encode(u)` (R153). -/
def Codec.encode (c : Codec) (bits : List Bit) : List Bit := c.encodeFrom 0 bits

/-- The state the encoder ends in: `NextState` iterated (R113). -/
def Codec.stateAfter (c : Codec) (bits : List Bit) : Nat := bits.foldl (nextState c.k) 0

/-- The received sequence cut from its start into groups of `n` bits, the last one padded with zeros (R55, R154). `fuel` bounds
the number of groups. -/
def groupsOf (n : Nat) : Nat → List Bit → List (List Bit)
  | 0, _ => []
  | fuel + 1, bits =>
    match bits with
    | [] => []
    | b :: rest => padGroup n ((b :: rest).take n) :: groupsOf n fuel ((b :: rest).drop n)

/-- The groups of `Decode(r)` (R154): a sequence of `M` bits has at most `M` groups. -/
def Codec.groups (c : Codec) (received : List Bit) : List (List Bit) :=
  groupsOf c.numParityBits received.length received

/-- One `TrellisStep` of `Decode(r)` on a metric vector and a trellis (R126, R154). -/
def Codec.forwardStep (c : Codec) (context : List Metric × List (List Nat)) (grp : List Bit) :
    List Metric × List (List Nat) :=
  let column := stepColumn c.k c.output context.1 grp
  (column.map Prod.fst, context.2 ++ [column.map Prod.snd])

/-- The metric vector and the trellis after the given groups (R154). -/
def Codec.forward (c : Codec) (groups : List (List Bit)) : List Metric × List (List Nat) :=
  groups.foldl c.forwardStep (initialMetrics c.k, [])

/-- `Decode(r)` (R154). -/
def Codec.decode (c : Codec) (received : List Bit) : List Bit :=
  let context := c.forward (c.groups received)
  tracebackBits c.k context.1 context.2

/-- `ceil(m / n)` (R144). -/
def ceilDiv (m n : Nat) : Nat := (m + n - 1) / n

/-- The expansion of `CONSTRUCT k, {p0, ...}` (R81). -/
def constructCommands (k : Nat) (polys : List Nat) : List Instr :=
  .cfgBegin k :: polys.map .cfgPoly ++ [.cfgCommit]

/-- The expansion of `NUMPARITY` (R82). -/
def numParityCommands : List Instr := [.cfgNpar]

/-- The expansion of `ENCODE "..."` (R83). -/
def encodeCommands (bits : List Bit) : List Instr := .encStart :: bits.map .encBit

/-- The expansion of `DECODE "..."` (R84). -/
def decodeCommands (received : List Bit) : List Instr := .decStart :: received.map .decBit ++ [.decTrace]

end Sys2Proof.Machine
end

