-- ==== Sys2Proof/Machine/Run.lean ====
section
/-! DEFINITION. Runs: any number of steps, and the run of a finite sequence of command words (R203). -/

namespace Sys2Proof.Machine

/-- `count` steps, one after another; a run that stopped would stay stopped. -/
def runSteps : Nat → State → Host.Outcome State Fault Refusal
  | 0, s => .next s
  | count + 1, s =>
    match step s with
    | .next t => runSteps count t
    | .fault r => .fault r
    | .refused r => .refused r

/-- The host's moves that issue the words of the given commands, in order (R61, R203). -/
def commandMoves (commands : List Instr) : List HostMove := commands.map fun i => .command (encode i)

/-- The host issues the given moves after those it has issued, and the block takes all of them (R203). -/
def runMoves (moves : List HostMove) (s : State) : Host.Outcome State Fault Refusal :=
  runSteps (s.pending.length + moves.length) (s.issue moves)

/-- The run of a sequence of commands (R203). -/
def runCommands (commands : List Instr) (s : State) : Host.Outcome State Fault Refusal :=
  runMoves (commandMoves commands) s

end Sys2Proof.Machine
end

