-- ==== Sys2Proof/WellFormed.lean ====
section
/-! DEFINITION. Which commands a word can spell: the operand fits the 24-bit `arg` field (R71, R72). -/

namespace Sys2Proof

/-- The operand of a command that has a numeric one is "a value in `[0, 2^24)`" (R71); a bit and an absent operand
always fit (R72). -/
def Instr.wellFormed : Instr → Bool
  | .cfgBegin k => decide (k < 2 ^ 24)
  | .cfgPoly p => decide (p < 2 ^ 24)
  | .cfgCommit => true
  | .cfgNpar => true
  | .encStart => true
  | .encBit _ => true
  | .decStart => true
  | .decBit _ => true
  | .decFlush => true
  | .decTrace => true

end Sys2Proof
end

