-- ==== Sys2Proof/Safety.lean ====
section
/-! DEFINITION. What statements about the machine are made in terms of: the invariants of R39 and the rules it names, the
states a run can reach, and the trellis step and the traceback as relations, written from R126 and R141 without the machine's
own step functions. -/

namespace Sys2Proof

/-- Whether an instance can hold a count (R9). -/
def Bound.admits : Bound → Nat → Bool
  | .unbounded, _ => true
  | .atMost m, count => decide (count ≤ m)

/-- A count an instance can hold (R9). -/
abbrev Bound.Admits (b : Bound) (count : Nat) : Prop := b.admits count = true

namespace Machine

/-- "the low `max(K-1-n, 0)` bits of `t` are zero" (R130): the states that `n` trellis steps reach from state 0. -/
abbrev ReachedIn (k n t : Nat) : Prop := t % 2 ^ (k - 1 - n) = 0

/-- What holds of the configuration registers from CFG.BEGIN on (R23, R39 item 1). -/
structure ConfigRegistersOk (s : State) : Prop where
  k_ge : 2 ≤ s.k
  k_le : s.k ≤ s.config.kmax
  n_le : s.config.nmax.Admits s.n
  /-- `G` holds the `N` polynomials delivered so far; before the first one it is not read (R23). -/
  g_length : s.n ≠ 0 → s.g.length = s.n
  g_range : ∀ p ∈ s.polys, 1 ≤ p ∧ p < 2 ^ s.k

/-- What holds in `READY` between any two commands (R39 items 1 to 6, with R34, R36, R130 and R132). -/
structure ReadyOk (s : State) : Prop where
  n_pos : 1 ≤ s.n
  /-- R39 item 2, with the table's shape (R31). -/
  out_length : s.out.length = 2 ^ s.k
  out_width : ∀ i < 2 ^ s.k, (s.out.getD i []).length = s.n
  out_entry : ∀ i < 2 ^ s.k, ∀ j < s.n,
    (s.out.getD i []).getD j false = parity (revK s.k (s.g.getD j 0) &&& i)
  /-- R39 item 3. -/
  es_lt : s.es < 2 ^ (s.k - 1)
  /-- R39 item 4. -/
  gb_lt : s.gb.length < s.n
  /-- R39 item 5. -/
  tr_le : s.config.tmax.Admits s.tr.length
  tr_column : ∀ column ∈ s.tr, column.length = 2 ^ (s.k - 1) ∧
    ∀ t < 2 ^ (s.k - 1), predecessorAt column t = pred0 s.k t ∨ predecessorAt column t = pred1 s.k t
  /-- The metric vector's shape (R33). -/
  pm_length : s.pm.length = 2 ^ (s.k - 1)
  /-- R39 item 6, as R130 says which ones are finite. -/
  pm_finite : ∀ t < 2 ^ (s.k - 1), metricAt s.pm t ≠ .inf ↔ ReachedIn s.k s.tr.length t
  /-- R34. -/
  pm_le : ∀ t < 2 ^ (s.k - 1), ∀ m, metricAt s.pm t = .fin m → m ≤ s.tr.length * s.n
  /-- R132: the recorded predecessor of a state that was finite after a step was finite before it. -/
  tr_finite : ∀ c < s.tr.length, ∀ t < 2 ^ (s.k - 1),
    ReachedIn s.k (c + 1) t → ReachedIn s.k c (predecessorAt (s.tr.getD c []) t)

/-- The invariant of the machine: it holds after reset of every instance and every step keeps it. -/
structure Invariant (s : State) : Prop where
  /-- R8, R9. -/
  config_ok : s.config.WellFormed
  /-- "`MODE = FAILED` if and only if `ERR != 0`" (R21). -/
  failed_iff : s.mode = .failed ↔ s.err ≠ 0
  /-- `ERRCMD` is 0 when no fault has occurred (R22). -/
  errcmd_zero : s.err = 0 → s.errcmd = 0
  /-- Nothing is emitted and no result is read before a codec exists (R191, R192, R175). -/
  quiet : s.mode = .unconfigured ∨ s.mode = .configuring → s.res = 0 ∧ s.encOut = [] ∧ s.decOut = []
  /-- `RES` holds 0 or `N` (R24). -/
  res_ready : s.mode = .ready → s.res = 0 ∨ s.res = s.n
  registers_ok : s.mode = .configuring ∨ s.mode = .ready → ConfigRegistersOk s
  ready_ok : s.mode = .ready → ReadyOk s

/-- The states of runs (R203): reset of an instance within R8 and R9, moves issued by the host, and steps. -/
inductive Reachable : State → Prop where
  | reset (c : Config) (ok : c.WellFormed) : Reachable (State.resetWith c)
  | issue (moves : List HostMove) {s : State} (reached : Reachable s) : Reachable (s.issue moves)
  | step {s t : State} (reached : Reachable s) (taken : step s = .next t) : Reachable t

/-- A fault entry as R176 writes it, with the cause code as R170 numbers it. -/
def faulted (code : BitVec 3) (w : Word) (s : State) : State :=
  { s with mode := .failed, err := code, errcmd := w }

/-- `TrellisStep(grp)` as R126 writes it, as a relation between the state before and the new metric vector and column. -/
structure TrellisStepSpec (s : State) (grp : List Bit) (npm : List Metric) (col : List Nat) : Prop where
  npm_length : npm.length = 2 ^ (s.k - 1)
  col_length : col.length = 2 ^ (s.k - 1)
  select : ∀ t < 2 ^ (s.k - 1),
    let mask := 2 ^ (s.k - 2) - 1
    let s0 := ((t &&& mask) <<< 1) ||| 0
    let s1 := ((t &&& mask) <<< 1) ||| 1
    let u := t >>> (s.k - 2)
    let pm1 := addInf (s.pm.getD s0 .inf) (hd grp (s.out.getD (s0 ||| (u <<< (s.k - 1))) []))
    let pm2 := addInf (s.pm.getD s1 .inf) (hd grp (s.out.getD (s1 ||| (u <<< (s.k - 1))) []))
    (leInf pm1 pm2 = true → npm[t]? = some pm1 ∧ col[t]? = some s0) ∧
    (leInf pm1 pm2 = false → npm[t]? = some pm2 ∧ col[t]? = some s1)

/-- "the lowest index among the states whose metric equals the minimum" (R141). -/
structure FirstMinimum (k : Nat) (pm : List Metric) (best : Nat) : Prop where
  in_range : best < 2 ^ (k - 1)
  minimal : ∀ s < 2 ^ (k - 1), leInf (pm.getD best .inf) (pm.getD s .inf) = true
  first : ∀ s < best, ltInf (pm.getD best .inf) (pm.getD s .inf) = true

/-- `Traceback()` as R140 and R141 write it, as a relation: `cur c` is the state of the walk before column `c`, so that `cur T` is
the best final state, and `bits` are in chronological order. -/
def TracebackSpec (k : Nat) (pm : List Metric) (tr : List (List Nat)) (bits : List Bit) : Prop :=
  bits.length = tr.length ∧
  ∃ cur : Nat → Nat, FirstMinimum k pm (cur tr.length) ∧
    ∀ c < tr.length,
      bits.getD c false = (cur (c + 1)).testBit (k - 2) ∧ cur c = (tr.getD c []).getD (cur (c + 1)) 0

/-- The metric vector of the start of a decode call, element by element (R33, R122). -/
structure FreshMetrics (k : Nat) (pm : List Metric) : Prop where
  length : pm.length = 2 ^ (k - 1)
  zero : pm[0]? = some (.fin 0)
  others : ∀ s, 1 ≤ s → s < 2 ^ (k - 1) → pm[s]? = some .inf

/-- The `j`-th parity bit of step `n` as the shift register gives it: "the XOR over `d` in `[0, K)` of `bit(G[j], d) & u[n-d]` with
`u[x] = 0` for `x < 0`" (R94, R113), for the polynomial `p` and the input sequence `u`. -/
def tapParity (k p : Nat) (u : List Bit) (n : Nat) : Bit :=
  (List.range k).foldl (fun acc d => xor acc (p.testBit d && (decide (d ≤ n) && u.getD (n - d) false))) false

/-- A code the construction accepts in some instance (R39 item 1, R151). -/
structure Codec.Valid (c : Codec) : Prop where
  k_ge : 2 ≤ c.k
  polys_ne : c.polys ≠ []
  polys_range : ∀ p ∈ c.polys, 1 ≤ p ∧ p < 2 ^ c.k

/-- The codec a `READY` block holds (R20, R151). -/
def State.codec (s : State) : Codec := { k := s.k, polys := s.g }

/-- The encoder's commands (R65). -/
def isEncCommand : Instr → Bool
  | .encStart => true
  | .encBit _ => true
  | _ => false

/-- The decoder's commands (R65). -/
def isDecCommand : Instr → Bool
  | .decStart => true
  | .decBit _ => true
  | .decFlush => true
  | .decTrace => true
  | _ => false

end Machine

end Sys2Proof
end

