-- ==== Sys2Proof/Certificates/Slice0/Obligations.lean ====
section
/-! DEFINITION. The statements about the model, from the spec's numbered rules. -/

open Sys2Proof Sys2Proof.Machine

/-! ### Command words -/

/-- Words written out from R73 decode to the commands they spell, one or two of each unit, and words R75 reserves do not. -/
def Obligations.WordsOfTheOpcodeMapDecode : Prop :=
  decode 0x01000003#32 = .command (.cfgBegin 3) ∧
  decode 0x02000007#32 = .command (.cfgPoly 7) ∧
  decode 0x03000000#32 = .command .cfgCommit ∧
  decode 0x11000001#32 = .command (.encBit true) ∧
  decode 0x21000000#32 = .command (.decBit false) ∧
  decode 0x22000000#32 = .command .decFlush ∧
  decode 0x23000000#32 = .command .decTrace ∧
  decode 0x00000000#32 = .illegal .reservedOp ∧
  decode 0x03000001#32 = .illegal .argNotZero ∧
  decode 0x11000002#32 = .illegal .argNotBit

/-- R74, rule by rule, with the fields read from the word as a number: which words are illegal, what a legal one spells, and what
an illegal one does in a mode other than `FAILED`. -/
def Obligations.DecodingIsTotal : Prop :=
  ∀ w : Word,
    let op := w.toNat / 2 ^ 24
    let arg := w.toNat % 2 ^ 24
    (op ∉ [0x01, 0x02, 0x03, 0x04, 0x10, 0x11, 0x20, 0x21, 0x22, 0x23] → ∃ e, decode w = .illegal e) ∧
    (op ∈ [0x03, 0x04, 0x10, 0x20, 0x22, 0x23] → arg ≠ 0 → ∃ e, decode w = .illegal e) ∧
    (op ∈ [0x11, 0x21] → arg > 1 → ∃ e, decode w = .illegal e) ∧
    (op = 0x01 → decode w = .command (.cfgBegin arg)) ∧
    (op = 0x02 → decode w = .command (.cfgPoly arg)) ∧
    (op = 0x03 → arg = 0 → decode w = .command .cfgCommit) ∧
    (op = 0x04 → arg = 0 → decode w = .command .cfgNpar) ∧
    (op = 0x10 → arg = 0 → decode w = .command .encStart) ∧
    (op = 0x11 → arg ≤ 1 → decode w = .command (.encBit (decide (arg = 1)))) ∧
    (op = 0x20 → arg = 0 → decode w = .command .decStart) ∧
    (op = 0x21 → arg ≤ 1 → decode w = .command (.decBit (decide (arg = 1)))) ∧
    (op = 0x22 → arg = 0 → decode w = .command .decFlush) ∧
    (op = 0x23 → arg = 0 → decode w = .command .decTrace) ∧
    (∀ e, decode w = .illegal e → ∀ s : State, s.mode ≠ .failed → runWord w s = .next (faulted 5 w s))

/-- Decoding the encoding of a well-formed command gives it back, for every command and every operand. -/
def Obligations.DecodeOfEncode : Prop :=
  ∀ i : Instr, i.wellFormed = true → decode (encode i) = .command i

/-- A word that spells a command is that command's encoding, and the command is well-formed: no two words spell one command. -/
def Obligations.EncodeOfDecode : Prop :=
  ∀ (w : Word) (i : Instr), decode w = .command i → i.wellFormed = true ∧ encode i = w

/-- R73: the rows of the opcode map are disjoint, and a word spells a row's command when it matches the row. -/
def Obligations.OpcodeRowsAgreeWithDecoder : Prop :=
  ∀ w : Word,
    (∀ r₁ ∈ opTable, ∀ r₂ ∈ opTable, r₁.spells w = true → r₂.spells w = true → r₁ = r₂) ∧
    (∀ r ∈ opTable, r.spells w = true ↔ ∃ i, decode w = .command i ∧ i.mnemonic = r.mnemonic)

/-! ### Steps, the host's moves, reset -/

/-- The step from decoded bytes: when the host's next move is a word that spells the command `i`, the step is `exec i` on the
state with that move taken. -/
def Obligations.StepRunsDecodedCommand : Prop :=
  (∀ (s : State) (w : Word) (later : List HostMove) (i : Instr),
    s.pending = .command w :: later → decode w = .command i → step s = exec i { s with pending := later }) ∧
  (∀ (s : State) (w : Nat) (i : Instr),
    w < 2 ^ 32 → decode (BitVec.ofNat 32 w) = .command i → step (s.withFetchWord 32 w) = exec i s)

/-- R173: a word that spells no command raises `ILLEGAL_COMMAND`, in every mode but `FAILED`. -/
def Obligations.IllegalWordRaises : Prop :=
  ∀ (s : State) (w : Word) (later : List HostMove) (e : Illegal),
    s.pending = .command w :: later → decode w = .illegal e → s.mode ≠ .failed →
      step s = .next { s with pending := later, mode := .failed, err := 5, errcmd := w }

/-- R179: in `FAILED` every word, legal or not, is ignored, and nothing but reset leaves `FAILED`, whatever the number of steps. -/
def Obligations.FailedIgnoresWordsUntilReset : Prop :=
  (∀ (s : State) (w : Word) (later : List HostMove),
    s.pending = .command w :: later → s.mode = .failed → step s = .next { s with pending := later }) ∧
  (∀ (s : State) (count : Nat), s.mode = .failed → HostMove.reset ∉ s.pending.take count →
    runSteps count s = .next { s with pending := s.pending.drop count })

/-- R190 to R192: a reset, in any mode, leaves the control and status registers and the streams as R191 and R192 say; the
instance's parameters and the host's further moves stay (the model's choice, log entries 1 and 5). -/
def Obligations.ResetMoveResets : Prop :=
  ∀ (s : State) (later : List HostMove), s.pending = .reset :: later →
    ∃ t, step s = .next t ∧ t.mode = .unconfigured ∧ t.err = 0 ∧ t.errcmd = 0 ∧ t.res = 0 ∧
      t.encOut = [] ∧ t.decOut = [] ∧ t.config = s.config ∧ t.pending = later

/-- R191, R192: what the state after reset holds in the registers and streams whose reset value the spec states. -/
def Obligations.ResetValues : Prop :=
  ∀ c : Config,
    let s := State.resetWith c
    s.mode.code = 0 ∧ s.mode = .unconfigured ∧ s.err = 0 ∧ s.errcmd = 0 ∧ s.res = 0 ∧ s.encOut = [] ∧ s.decOut = []

/-- R59, R203: reading changes nothing, and neither does a step when the host has issued no more (the model's choice, log
entry 4). -/
def Obligations.ReadingAndIdlingChangeNothing : Prop :=
  (∀ (s : State) (later : List HostMove), s.pending = .read :: later → step s = .next { s with pending := later }) ∧
  (∀ s : State, s.pending = [] → step s = .next s)

/-- R202, R203: every move the host issued is taken, one a step, and no run stops before. -/
def Obligations.EveryIssuedMoveIsTaken : Prop :=
  ∀ s : State, ∃ t, runSteps s.pending.length s = .next t ∧ t.pending = []

/-- R61: the moves take effect in the order issued, each sequence completely before the next. -/
def Obligations.MovesTakeEffectInOrder : Prop :=
  ∀ (s t : State) (first second : List HostMove),
    runMoves first s = .next t → runMoves (first ++ second) s = runMoves second t

/-! ### Faults and modes -/

/-- R175: a legal command in a mode that does not accept it. -/
def Obligations.WrongModeRaises : Prop :=
  ∀ s : State, s.mode ≠ .failed →
    (s.mode ≠ .unconfigured → ∀ k, exec (.cfgBegin k) s = .next (faulted 6 (encode (.cfgBegin k)) s)) ∧
    (s.mode ≠ .configuring → ∀ p, exec (.cfgPoly p) s = .next (faulted 6 (encode (.cfgPoly p)) s)) ∧
    (s.mode ≠ .configuring → exec .cfgCommit s = .next (faulted 6 (encode .cfgCommit) s)) ∧
    (s.mode ≠ .ready →
      exec .cfgNpar s = .next (faulted 6 (encode .cfgNpar) s) ∧
      exec .encStart s = .next (faulted 6 (encode .encStart) s) ∧
      (∀ b, exec (.encBit b) s = .next (faulted 6 (encode (.encBit b)) s)) ∧
      exec .decStart s = .next (faulted 6 (encode .decStart) s) ∧
      (∀ b, exec (.decBit b) s = .next (faulted 6 (encode (.decBit b)) s)) ∧
      exec .decFlush s = .next (faulted 6 (encode .decFlush) s) ∧
      exec .decTrace s = .next (faulted 6 (encode .decTrace) s))

/-- R176: a command that enters `FAILED` has written `MODE`, `ERR` and `ERRCMD` and nothing else. That the registers whose values
R176 leaves unspecified from then on stay as they were is the reading R176 allows by name (log entry 6). -/
def Obligations.FaultEntryIsPrecise : Prop :=
  ∀ (i : Instr) (s t : State), exec i s = .next t → s.mode ≠ .failed → t.mode = .failed →
    ∃ code : BitVec 3, code ≠ 0 ∧ t = faulted code (encode i) s

/-- R178: the order of the checks on a command word, in any state. -/
def Obligations.ChecksComeInOrder : Prop :=
  ∀ (w : Word) (s : State),
    (s.mode = .failed → runWord w s = .next s) ∧
    (s.mode ≠ .failed → (∃ e, decode w = .illegal e) → runWord w s = .next (faulted 5 w s)) ∧
    (s.mode ≠ .failed → ∀ i, decode w = .command i → s.mode ≠ i.acceptedIn → runWord w s = .next (faulted 6 w s)) ∧
    (s.mode = .unconfigured → ∀ k, decode w = .command (.cfgBegin k) →
      k < 2 ∨ s.config.kmax < k → runWord w s = .next (faulted 4 w s)) ∧
    (s.mode = .configuring → ∀ p, decode w = .command (.cfgPoly p) →
      (p = 0 → runWord w s = .next (faulted 2 w s)) ∧
      (p ≠ 0 → 2 ^ s.k ≤ p → runWord w s = .next (faulted 3 w s)) ∧
      (p ≠ 0 → p < 2 ^ s.k → s.config.nmax = .atMost s.n → runWord w s = .next (faulted 7 w s))) ∧
    (s.mode = .configuring → decode w = .command .cfgCommit → s.n = 0 → runWord w s = .next (faulted 1 w s)) ∧
    (s.mode = .ready → ∀ b, decode w = .command (.decBit b) →
      (s.gb.length + 1 < s.n → ∃ t, runWord w s = .next t ∧ t.mode = .ready) ∧
      (s.n ≤ s.gb.length + 1 → s.config.tmax = .atMost s.tr.length → runWord w s = .next (faulted 7 w s))) ∧
    (s.mode = .ready → decode w = .command .decFlush ∨ decode w = .command .decTrace →
      (s.gb = [] → ∃ t, runWord w s = .next t ∧ t.mode = .ready) ∧
      (s.gb ≠ [] → s.config.tmax = .atMost s.tr.length → runWord w s = .next (faulted 7 w s)))

/-- R20: the codes of the four modes and the transitions between them, over all steps. -/
def Obligations.ModeTransitions : Prop :=
  (Mode.unconfigured.code = 0 ∧ Mode.configuring.code = 1 ∧ Mode.ready.code = 2 ∧ Mode.failed.code = 3) ∧
  (∀ s t : State, step s = .next t →
    t.mode = s.mode ∨
    (s.pending.head? = some .reset ∧ t.mode = .unconfigured) ∨
    (s.mode = .unconfigured ∧ t.mode = .configuring ∧
      ∃ w k, s.pending.head? = some (.command w) ∧ decode w = .command (.cfgBegin k)) ∨
    (s.mode = .configuring ∧ t.mode = .ready ∧
      ∃ w, s.pending.head? = some (.command w) ∧ decode w = .command .cfgCommit) ∨
    (s.mode ≠ .failed ∧ t.mode = .failed ∧ t.err ≠ 0))

/-- R174, R178: when a command raises `CAPACITY`, and that an instance without bounds never does. -/
def Obligations.CapacityExactlyWhenFull : Prop :=
  ∀ (i : Instr) (s t : State), s.mode ≠ .failed → s.err = 0 → exec i s = .next t →
    ((t.err = 7 ↔
      (∃ p, i = .cfgPoly p ∧ s.mode = .configuring ∧ p ≠ 0 ∧ p < 2 ^ s.k ∧ s.config.nmax = .atMost s.n) ∨
      (s.mode = .ready ∧ s.config.tmax = .atMost s.tr.length ∧
        ((∃ b, i = .decBit b ∧ s.n ≤ s.gb.length + 1) ∨ ((i = .decFlush ∨ i = .decTrace) ∧ s.gb ≠ [])))) ∧
    (s.config.nmax = .unbounded → s.config.tmax = .unbounded → t.err ≠ 7))

/-! ### The configuration unit -/

/-- R95: CFG.BEGIN in every mode that does not ignore it; all else is unchanged. -/
def Obligations.CfgBeginEffect : Prop :=
  ∀ (k : Nat) (s : State),
    (s.mode = .unconfigured → 2 ≤ k → k ≤ s.config.kmax →
      exec (.cfgBegin k) s = .next { s with k := k, n := 0, mode := .configuring }) ∧
    (s.mode = .unconfigured → k < 2 ∨ s.config.kmax < k →
      exec (.cfgBegin k) s = .next (faulted 4 (encode (.cfgBegin k)) s)) ∧
    (s.mode = .configuring ∨ s.mode = .ready →
      exec (.cfgBegin k) s = .next (faulted 6 (encode (.cfgBegin k)) s))

/-- R96: CFG.POLY in every mode that does not ignore it: `G[0..N-1]` are kept, `G[N]` is `p` and `N` is one more; all else is
unchanged. -/
def Obligations.CfgPolyEffect : Prop :=
  ∀ (p : Nat) (s : State),
    (s.mode = .configuring → s.n ≤ s.g.length → p ≠ 0 → p < 2 ^ s.k → s.config.nmax ≠ .atMost s.n →
      ∃ g, exec (.cfgPoly p) s = .next { s with g := g, n := s.n + 1 } ∧
        (∀ j < s.n, g[j]? = s.g[j]?) ∧ g[s.n]? = some p) ∧
    (s.mode = .configuring → p = 0 → exec (.cfgPoly p) s = .next (faulted 2 (encode (.cfgPoly p)) s)) ∧
    (s.mode = .configuring → 2 ^ s.k ≤ p → exec (.cfgPoly p) s = .next (faulted 3 (encode (.cfgPoly p)) s)) ∧
    (s.mode = .configuring → p ≠ 0 → p < 2 ^ s.k → s.config.nmax = .atMost s.n →
      exec (.cfgPoly p) s = .next (faulted 7 (encode (.cfgPoly p)) s)) ∧
    (s.mode = .unconfigured ∨ s.mode = .ready → exec (.cfgPoly p) s = .next (faulted 6 (encode (.cfgPoly p)) s))

/-- R98: CFG.COMMIT in every mode that does not ignore it: the output table entry by entry, both contexts fresh, all else
unchanged. -/
def Obligations.CfgCommitEffect : Prop :=
  ∀ s : State,
    (s.mode = .configuring → s.n ≤ s.g.length → s.n ≠ 0 →
      ∃ t, exec .cfgCommit s = .next t ∧
        t = { s with out := t.out, es := 0, gb := [], pm := t.pm, tr := [], mode := .ready } ∧
        t.out.length = 2 ^ s.k ∧
        (∀ i < 2 ^ s.k, (t.out.getD i []).length = s.n ∧
          ∀ j < s.n, (t.out.getD i [])[j]? = some (parity (revK s.k (s.g.getD j 0) &&& i))) ∧
        FreshMetrics s.k t.pm) ∧
    (s.mode = .configuring → s.n = 0 → exec .cfgCommit s = .next (faulted 1 (encode .cfgCommit) s)) ∧
    (s.mode = .unconfigured ∨ s.mode = .ready → exec .cfgCommit s = .next (faulted 6 (encode .cfgCommit) s))

/-- R99: CFG.NPAR writes `N` into `RES` and changes nothing else. -/
def Obligations.CfgNparEffect : Prop :=
  ∀ s : State,
    (s.mode = .ready → exec .cfgNpar s = .next { s with res := s.n }) ∧
    (s.mode = .unconfigured ∨ s.mode = .configuring → exec .cfgNpar s = .next (faulted 6 (encode .cfgNpar) s))

/-- R100: once a codec exists no command writes `K`, `N`, `G` or `OUT`. That no command ever writes the instance's parameters is
the model's choice (log entry 1) and no part of R100. -/
def Obligations.ConfigurationIsImmutable : Prop :=
  ∀ (i : Instr) (s t : State), exec i s = .next t →
    t.config = s.config ∧
    (s.mode = .ready ∨ s.mode = .failed → t.k = s.k ∧ t.n = s.n ∧ t.g = s.g ∧ t.out = s.out)

/-- R90: bit reversal within `K` bits, bit by bit, and that it is its own inverse. -/
def Obligations.RevKReversesBits : Prop :=
  ∀ k p : Nat, p < 2 ^ k →
    (∀ j < k, (revK k p).testBit j = p.testBit (k - 1 - j)) ∧ revK k p < 2 ^ k ∧ revK k (revK k p) = p

/-- R92: the bound of the next state, its two other forms, and the input bit in its top position. -/
def Obligations.NextStateLaws : Prop :=
  ∀ (k state : Nat) (input : Bit), 2 ≤ k → state < 2 ^ (k - 1) →
    nextState k state input = (state >>> 1) ||| (input.toNat <<< (k - 2)) ∧
    nextState k state input < 2 ^ (k - 1) ∧
    nextState k state input = (state ||| (input.toNat <<< (k - 1))) >>> 1 ∧
    (nextState k state input).testBit (k - 2) = input ∧
    (k = 2 → nextState k state input = input.toNat)

/-! ### The encoder unit -/

/-- R111: ENC.START sets `ES` to 0 and changes nothing else. -/
def Obligations.EncStartEffect : Prop :=
  ∀ s : State,
    (s.mode = .ready → exec .encStart s = .next { s with es := 0 }) ∧
    (s.mode = .unconfigured ∨ s.mode = .configuring → exec .encStart s = .next (faulted 6 (encode .encStart) s))

/-- R112: ENC.BIT appends the table entry of the combined index, then advances the state, and changes nothing else. -/
def Obligations.EncBitEffect : Prop :=
  ∀ (b : Bit) (s : State),
    (s.mode = .ready →
      exec (.encBit b) s = .next { s with
        encOut := s.encOut ++ s.out.getD (s.es ||| (b.toNat <<< (s.k - 1))) []
        es := (s.es >>> 1) ||| (b.toNat <<< (s.k - 2)) }) ∧
    (s.mode = .unconfigured ∨ s.mode = .configuring →
      exec (.encBit b) s = .next (faulted 6 (encode (.encBit b)) s))

/-- R110, R91: in the invariant, ENC.BIT appends exactly `N` bits, the `j`-th of them the parity of the `j`-th polynomial's taps
at the combined index, and the new state is below `S`. -/
def Obligations.EncBitEmitsParities : Prop :=
  ∀ (b : Bit) (s : State), Invariant s → s.mode = .ready →
    ∃ t bits, exec (.encBit b) s = .next t ∧ t.encOut = s.encOut ++ bits ∧ bits.length = s.n ∧
      (∀ j < s.n, bits[j]? = some (parity (revK s.k (s.g.getD j 0) &&& (s.es + b.toNat * 2 ^ (s.k - 1))))) ∧
      t.es = (s.es + b.toNat * 2 ^ (s.k - 1)) / 2 ∧ t.es < 2 ^ (s.k - 1)

/-- R94, R113: the encoder is the shift register with XOR taps, and a prefix function. -/
def Obligations.EncoderIsTheShiftRegister : Prop :=
  ∀ (c : Codec) (u : List Bit), c.Valid →
    (c.encode u).length = u.length * c.polys.length ∧
    (∀ n < u.length, ∀ j < c.polys.length,
      (c.encode u)[n * c.polys.length + j]? = some (tapParity c.k (c.polys.getD j 0) u n)) ∧
    (∀ v : List Bit, (c.encode (u ++ v)).take (u.length * c.polys.length) = c.encode u)

/-- R53: the state holds the input history with the newest bit on top: after the bits of `u`, bit `K-1-d` of the state is the bit
consumed `d` steps ago, and 0 before the first one; the next bit stands above them in the combined index. -/
def Obligations.StateHoldsInputHistory : Prop :=
  ∀ (c : Codec) (u : List Bit) (b : Bit) (d : Nat), 2 ≤ c.k → 1 ≤ d → d ≤ c.k - 1 →
    let past := decide (d ≤ u.length) && u.getD (u.length - d) false
    (c.stateAfter u).testBit (c.k - 1 - d) = past ∧
    (combinedIndex c.k (c.stateAfter u) b).testBit (c.k - 1 - d) = past ∧
    (combinedIndex c.k (c.stateAfter u) b).testBit (c.k - 1) = b

/-! ### The decoder's forward pass -/

/-- R121: the two predecessors of a state are exactly the states that some input takes to it, and the input is its top bit. -/
def Obligations.PredecessorsAreExact : Prop :=
  ∀ (k t : Nat), 2 ≤ k → t < 2 ^ (k - 1) →
    (∀ (s : Nat) (u : Bit), s < 2 ^ (k - 1) →
      (nextState k s u = t ↔
        u.toNat = t >>> (k - 2) ∧
        (s = ((t &&& (2 ^ (k - 2) - 1)) <<< 1) ||| 0 ∨ s = ((t &&& (2 ^ (k - 2) - 1)) <<< 1) ||| 1))) ∧
    (pred0 k t % 2 = 0 ∧ pred1 k t = pred0 k t + 1 ∧ pred1 k t < 2 ^ (k - 1))

/-- R17, R127, R128, R34: the guarded addition never makes a finite metric of `INF`, the order has `INF` as its greatest element,
and the four cases of the compare-select. -/
def Obligations.CompareSelectCases : Prop :=
  (∀ d, addInf .inf d = .inf) ∧ (∀ m d, addInf (.fin m) d = .fin (m + d)) ∧
  (∀ a b, ltInf a b = true ↔ leInf b a = false) ∧ (∀ m, ltInf (.fin m) .inf = true ∧ ltInf .inf (.fin m) = false) ∧
  ltInf .inf .inf = false ∧
  (∀ (a b s0 s1 : Nat), a ≤ b → compareSelect (.fin a) s0 (.fin b) s1 = (.fin a, s0)) ∧
  (∀ (a b s0 s1 : Nat), b < a → compareSelect (.fin a) s0 (.fin b) s1 = (.fin b, s1)) ∧
  (∀ (a s0 s1 : Nat), compareSelect (.fin a) s0 .inf s1 = (.fin a, s0)) ∧
  (∀ (b s0 s1 : Nat), compareSelect .inf s0 (.fin b) s1 = (.fin b, s1)) ∧
  (∀ (s0 s1 : Nat), compareSelect .inf s0 .inf s1 = (.inf, s0))

/-- R122: DEC.START in every mode that does not ignore it; all else is unchanged. -/
def Obligations.DecStartEffect : Prop :=
  ∀ s : State,
    (s.mode = .ready →
      ∃ pm, FreshMetrics s.k pm ∧ exec .decStart s = .next { s with pm := pm, tr := [], gb := [] }) ∧
    (s.mode = .unconfigured ∨ s.mode = .configuring → exec .decStart s = .next (faulted 6 (encode .decStart) s))

/-- R123, R126: DEC.BIT fills the group buffer, or runs a trellis step on the group it completes; all else is unchanged. -/
def Obligations.DecBitEffect : Prop :=
  ∀ (b : Bit) (s : State),
    (s.mode = .ready → s.gb.length + 1 < s.n → exec (.decBit b) s = .next { s with gb := s.gb ++ [b] }) ∧
    (s.mode = .ready → s.gb.length + 1 = s.n → s.config.tmax ≠ .atMost s.tr.length →
      ∃ npm col, TrellisStepSpec s (s.gb ++ [b]) npm col ∧
        exec (.decBit b) s = .next { s with pm := npm, tr := s.tr ++ [col], gb := [] }) ∧
    (s.mode = .ready → s.gb.length + 1 = s.n → s.config.tmax = .atMost s.tr.length →
      exec (.decBit b) s = .next (faulted 7 (encode (.decBit b)) s)) ∧
    (s.mode = .unconfigured ∨ s.mode = .configuring →
      exec (.decBit b) s = .next (faulted 6 (encode (.decBit b)) s))

/-- R124, R126: DEC.FLUSH completes a short group with zeros and runs its trellis step, and does nothing when the buffer is
empty; all else is unchanged. -/
def Obligations.DecFlushEffect : Prop :=
  ∀ s : State,
    (s.mode = .ready → s.gb = [] → exec .decFlush s = .next s) ∧
    (s.mode = .ready → s.gb ≠ [] → s.config.tmax ≠ .atMost s.tr.length →
      ∃ npm col, TrellisStepSpec s (s.gb ++ List.replicate (s.n - s.gb.length) false) npm col ∧
        exec .decFlush s = .next { s with pm := npm, tr := s.tr ++ [col], gb := [] }) ∧
    (s.mode = .ready → s.gb ≠ [] → s.config.tmax = .atMost s.tr.length →
      exec .decFlush s = .next (faulted 7 (encode .decFlush) s)) ∧
    (s.mode = .unconfigured ∨ s.mode = .configuring → exec .decFlush s = .next (faulted 6 (encode .decFlush) s))

/-- R131: across a trellis step the smallest metric never decreases and grows by at most `N`. -/
def Obligations.SmallestMetricGrowsByAtMostN : Prop :=
  ∀ (s t : State) (b : Bit), Invariant s → s.mode = .ready → s.gb.length + 1 = s.n →
    exec (.decBit b) s = .next t → t.mode = .ready →
    (∀ x < 2 ^ (s.k - 1), ∃ y < 2 ^ (s.k - 1), leInf (s.pm.getD y .inf) (t.pm.getD x .inf) = true) ∧
    (∀ x < 2 ^ (s.k - 1), ∀ m, s.pm.getD x .inf = .fin m →
      ∃ m', t.pm.getD (nextState s.k x false) .inf = .fin m' ∧ m' ≤ m + s.n)

/-- R130, R34: in every `READY` state of a run, which metrics are finite and how large they can be. -/
def Obligations.ReachabilityAndBoundOfMetrics : Prop :=
  ∀ s : State, Reachable s → s.mode = .ready →
    (∀ t < 2 ^ (s.k - 1), s.pm.getD t .inf ≠ .inf ↔ t % 2 ^ (s.k - 1 - s.tr.length) = 0) ∧
    s.pm.getD 0 .inf ≠ .inf ∧
    (∀ t < 2 ^ (s.k - 1), ∀ m, s.pm.getD t .inf = .fin m → m ≤ s.tr.length * s.n)

/-- R36: in every `READY` state of a run, each trellis entry is one of the two predecessors of its target state, is below `S`, and
is fixed by its least significant bit. -/
def Obligations.TrellisEntriesArePredecessors : Prop :=
  ∀ s : State, Reachable s → s.mode = .ready → ∀ c < s.tr.length, ∀ t < 2 ^ (s.k - 1),
    ∃ e, (s.tr.getD c [])[t]? = some e ∧
      (e = ((t &&& (2 ^ (s.k - 2) - 1)) <<< 1) ||| 0 ∨ e = ((t &&& (2 ^ (s.k - 2) - 1)) <<< 1) ||| 1) ∧
      e < 2 ^ (s.k - 1) ∧ e = ((t &&& (2 ^ (s.k - 2) - 1)) <<< 1) ||| (e % 2)

/-! ### The traceback -/

/-- R142, R141: DEC.TRACE runs the padding step if a short group is pending, appends the traceback's bits and leaves the decoder
context fresh; all else is unchanged. -/
def Obligations.DecTraceEffect : Prop :=
  ∀ s : State,
    (s.mode = .ready → s.gb = [] →
      ∃ bits pm, TracebackSpec s.k s.pm s.tr bits ∧ FreshMetrics s.k pm ∧
        exec .decTrace s = .next { s with decOut := s.decOut ++ bits, pm := pm, tr := [] }) ∧
    (s.mode = .ready → s.gb ≠ [] → s.config.tmax ≠ .atMost s.tr.length →
      ∃ npm col bits pm, TrellisStepSpec s (s.gb ++ List.replicate (s.n - s.gb.length) false) npm col ∧
        TracebackSpec s.k npm (s.tr ++ [col]) bits ∧ FreshMetrics s.k pm ∧
        exec .decTrace s = .next { s with decOut := s.decOut ++ bits, pm := pm, tr := [], gb := [] }) ∧
    (s.mode = .ready → s.gb ≠ [] → s.config.tmax = .atMost s.tr.length →
      exec .decTrace s = .next (faulted 7 (encode .decTrace) s)) ∧
    (s.mode = .unconfigured ∨ s.mode = .configuring → exec .decTrace s = .next (faulted 6 (encode .decTrace) s))

/-- R143, R132: in every `READY` state of a run, the state the final scan selects has a finite metric, every state the walk visits
was finite at its time, and the walk ends in state 0. -/
def Obligations.TracebackVisitsFiniteStates : Prop :=
  ∀ (s : State) (cur : Nat → Nat), Reachable s → s.mode = .ready → FirstMinimum s.k s.pm (cur s.tr.length) →
    (∀ c < s.tr.length, cur c = (s.tr.getD c []).getD (cur (c + 1)) 0) →
    s.pm.getD (cur s.tr.length) .inf ≠ .inf ∧
    (∀ c ≤ s.tr.length, cur c < 2 ^ (s.k - 1) ∧ cur c % 2 ^ (s.k - 1 - c) = 0) ∧
    cur 0 = 0

/-! ### Invariants of the whole machine -/

/-- The invariant holds after reset of every instance within R8 and R9, the one of `State.reset` among them. -/
def Obligations.InvariantHoldsAfterReset : Prop :=
  (∀ c : Config, c.WellFormed → Invariant (State.resetWith c)) ∧ Invariant State.reset

/-- Every step keeps the invariant, from every state that has it. -/
def Obligations.EveryStepKeepsTheInvariant : Prop :=
  ∀ s t : State, Invariant s → step s = .next t → Invariant t

/-- R39, item by item, in every `READY` state of a run; item 7 is about the step that follows. -/
def Obligations.ReadyStatesOfRuns : Prop :=
  ∀ s : State, Reachable s → s.mode = .ready →
    (2 ≤ s.k ∧ s.k ≤ s.config.kmax ∧ 1 ≤ s.n ∧ s.config.nmax.Admits s.n ∧ s.g.length = s.n ∧
      ∀ j < s.n, 1 ≤ s.g.getD j 0 ∧ s.g.getD j 0 < 2 ^ s.k) ∧
    (∀ i < 2 ^ s.k, ∀ j < s.n, (s.out.getD i [])[j]? = some (parity (revK s.k (s.g.getD j 0) &&& i))) ∧
    s.es < 2 ^ (s.k - 1) ∧
    s.gb.length < s.n ∧
    (s.config.tmax.Admits s.tr.length ∧ ∀ column ∈ s.tr, column.length = 2 ^ (s.k - 1) ∧
      ∀ t < 2 ^ (s.k - 1), column.getD t 0 = pred0 s.k t ∨ column.getD t 0 = pred1 s.k t) ∧
    (s.pm.length = 2 ^ (s.k - 1) ∧ ∃ t < 2 ^ (s.k - 1), s.pm.getD t .inf ≠ .inf) ∧
    (∀ t, step s = .next t → t.tr.length = s.tr.length + 1 →
      ∀ x < 2 ^ (s.k - 1), ∃ y < 2 ^ (s.k - 1), leInf (s.pm.getD y .inf) (t.pm.getD x .inf) = true)

/-- R193: what the registers that reset leaves unspecified hold after reset is never seen: two blocks in `UNCONFIGURED` that agree
on everything the spec gives a reset value, on the instance and on the host's moves, show the host the same for ever. -/
def Obligations.UnspecifiedResetValuesAreNeverSeen : Prop :=
  ∀ s t : State, s.mode = .unconfigured → t.mode = .unconfigured → s.observe = t.observe → s.config = t.config →
    s.pending = t.pending → ∀ count : Nat,
      ∃ s' t', runSteps count s = .next s' ∧ runSteps count t = .next t' ∧ s'.observe = t'.observe

/-- R32, R37, R197: no command removes a bit from a stream, only ENC.BIT appends to `ENC_OUT` and only DEC.TRACE to `DEC_OUT`. -/
def Obligations.StreamsOnlyGrow : Prop :=
  ∀ (i : Instr) (s t : State), exec i s = .next t →
    s.encOut <+: t.encOut ∧ s.decOut <+: t.decOut ∧
    ((∀ b, i ≠ .encBit b) → t.encOut = s.encOut) ∧ (i ≠ .decTrace → t.decOut = s.decOut)

/-- R65: what a run of commands in `READY` without a fault leaves in the encoder context depends only on its ENC commands, and
what it leaves in the decoder context only on its DEC commands. -/
def Obligations.EncoderAndDecoderAreIndependent : Prop :=
  ∀ (s t : State) (commands : List Instr), s.mode = .ready → s.pending = [] →
    (∀ i ∈ commands, i.acceptedIn = .ready) → runCommands commands s = .next t → t.mode = .ready →
    (∃ e, runCommands (commands.filter isEncCommand) s = .next e ∧ e.encOut = t.encOut ∧ e.es = t.es) ∧
    (∃ d, runCommands (commands.filter isDecCommand) s = .next d ∧ d.decOut = t.decOut ∧
      d.gb = t.gb ∧ d.pm = t.pm ∧ d.tr = t.tr)

/-! ### The four public operations -/

/-- R151, R97: the expansion of CONSTRUCT issued to a block in `UNCONFIGURED` ends in `READY` with the codec's registers and table,
or in `FAILED` with the cause of the first failing check. -/
def Obligations.ConstructCommandsConstruct : Prop :=
  ∀ (s : State) (k : Nat) (polys : List Nat), s.mode = .unconfigured → s.pending = [] → k < 2 ^ 24 →
    (∀ p ∈ polys, p < 2 ^ 24) →
    let valid := 2 ≤ k ∧ k ≤ s.config.kmax ∧ polys ≠ [] ∧ (∀ p ∈ polys, 1 ≤ p ∧ p < 2 ^ k) ∧
      s.config.nmax.Admits polys.length
    (valid →
      ∃ t, runCommands (constructCommands k polys) s = .next t ∧
        t = { s with
          mode := .ready, k := k, n := polys.length, g := polys, out := t.out
          es := 0, gb := [], pm := t.pm, tr := [] } ∧
        t.out.length = 2 ^ k ∧
        (∀ i < 2 ^ k, (t.out.getD i []).length = polys.length ∧
          ∀ j < polys.length, (t.out.getD i [])[j]? = some (parity (revK k (polys.getD j 0) &&& i))) ∧
        FreshMetrics k t.pm) ∧
    (¬ valid →
      ∃ t cause, runCommands (constructCommands k polys) s = .next t ∧ t.mode = .failed ∧
        constructCause s.config k polys = some cause ∧ t.err = cause.code ∧
        ∀ later : List Instr, runCommands later t = .next t)

/-- R153: the expansion of ENCODE issued to a `READY` block appends exactly `Encode(u)`, whatever the encoder context held and
whatever commands of the decoder are interleaved. -/
def Obligations.EncodeCommandsEncode : Prop :=
  ∀ (s : State) (u : List Bit), Invariant s → s.mode = .ready → s.pending = [] →
    runCommands (encodeCommands u) s =
      .next { s with es := s.codec.stateAfter u, encOut := s.encOut ++ s.codec.encode u } ∧
    (∀ (commands : List Instr) (t : State), (∀ i ∈ commands, i.acceptedIn = .ready) →
      commands.filter isEncCommand = encodeCommands u → runCommands commands s = .next t → t.mode = .ready →
      t.encOut = s.encOut ++ s.codec.encode u)

/-- R154: the expansion of DECODE issued to a `READY` block appends exactly `Decode(r)` when the instance holds its columns,
faults with `CAPACITY` and appends nothing when it does not, whatever the decoder context held and whatever other commands of
`READY` are interleaved. -/
def Obligations.DecodeCommandsDecode : Prop :=
  ∀ (s : State) (r : List Bit), Invariant s → s.mode = .ready → s.pending = [] →
    (s.config.tmax.Admits (ceilDiv r.length s.n) →
      runCommands (decodeCommands r) s =
        .next { s with gb := [], pm := initialMetrics s.k, tr := [], decOut := s.decOut ++ s.codec.decode r }) ∧
    (¬ s.config.tmax.Admits (ceilDiv r.length s.n) →
      ∃ t, runCommands (decodeCommands r) s = .next t ∧ t.mode = .failed ∧ t.err = 7 ∧ t.decOut = s.decOut) ∧
    (∀ commands : List Instr, (∀ i ∈ commands, i.acceptedIn = .ready) →
      commands.filter isDecCommand = decodeCommands r →
      ∃ t, runCommands commands s = .next t ∧
        (s.config.tmax.Admits (ceilDiv r.length s.n) →
          t.mode = .ready ∧ t.err = s.err ∧ t.decOut = s.decOut ++ s.codec.decode r) ∧
        (¬ s.config.tmax.Admits (ceilDiv r.length s.n) → t.mode = .failed ∧ t.err = 7 ∧ t.decOut = s.decOut))

/-- R155, R144: the output length laws, for every code with a polynomial and every input. -/
def Obligations.OutputLengths : Prop :=
  ∀ (c : Codec) (m r : List Bit), c.polys ≠ [] →
    (c.encode m).length = m.length * c.numParityBits ∧
    (c.decode r).length = ceilDiv r.length c.numParityBits

/-- R157: both operations return an empty sequence on an empty sequence, as functions and as command sequences. -/
def Obligations.EmptyInputsGiveEmptyOutputs : Prop :=
  (∀ c : Codec, c.encode [] = [] ∧ c.decode [] = []) ∧
  (∀ s : State, s.mode = .ready → s.pending = [] →
    (∃ t, runCommands (encodeCommands []) s = .next t ∧ t.encOut = s.encOut) ∧
    (∃ t, runCommands (decodeCommands []) s = .next t ∧ t.decOut = s.decOut))

/-- R145: the decoded sequence is a most likely one: among all input sequences of its length its encoding is nearest to the
received bits after padding, and that least distance is the metric the final scan selects. -/
def Obligations.DecodingIsMaximumLikelihood : Prop :=
  ∀ (c : Codec) (r : List Bit), c.Valid →
    let padded := (c.groups r).flatten
    let d := c.decode r
    let final := (c.forward (c.groups r)).1
    padded = r ++ List.replicate (ceilDiv r.length c.polys.length * c.polys.length - r.length) false ∧
    d.length = ceilDiv r.length c.polys.length ∧
    metricAt final (bestState c.k final) = .fin (hd (c.encode d) padded) ∧
    (∀ d' : List Bit, d'.length = d.length → hd (c.encode d) padded ≤ hd (c.encode d') padded)

/-- R158, R159: without channel errors every message is decoded back when some polynomial taps the current input bit, and no
message that ends in 1 is when none does. -/
def Obligations.RoundTripExactlyForOddPolynomials : Prop :=
  ∀ (c : Codec), c.Valid →
    ((∃ p ∈ c.polys, p % 2 = 1) → ∀ m : List Bit, c.decode (c.encode m) = m) ∧
    ((∀ p ∈ c.polys, p % 2 = 0) → ∀ m : List Bit, c.decode (c.encode (m ++ [true])) ≠ m ++ [true])
end

