-- ==== Sys2Proof/Laws/Bits.lean ====
section
/-! SUPPORT. The arithmetic of states, indexes, predecessors and groups: each operation of Operands.lean in terms of `/`, `%` and
`+`, on which omega decides. -/

namespace Sys2Proof.Machine

/-! ### States and the combined index (R52, R92) -/

theorem numStates_pos (k : Nat) : 0 < numStates k := Nat.two_pow_pos _

theorem numStates_double {k : Nat} (h : 2 ≤ k) : numStates k = 2 * 2 ^ (k - 2) := by
  rw [numStates, show k - 1 = (k - 2) + 1 by omega, pow_succ]; omega

theorem two_pow_double {k : Nat} (h : 1 ≤ k) : 2 ^ k = 2 * numStates k := by
  rw [numStates, ← pow_succ', show k - 1 + 1 = k by omega]

/-- A bit above a number that does not reach it is added to it. -/
theorem or_shiftLeft_bit {x w : Nat} (u : Bit) (h : x < 2 ^ w) : x ||| (u.toNat <<< w) = x + u.toNat * 2 ^ w := by
  cases u with
  | false => simp
  | true =>
    rw [Nat.lor_comm, ← Nat.shiftLeft_add_eq_or_of_lt h, Nat.shiftLeft_eq]
    omega

theorem combinedIndex_eq {k state : Nat} (u : Bit) (h : state < numStates k) :
    combinedIndex k state u = state + u.toNat * numStates k := or_shiftLeft_bit u h

theorem combinedIndex_lt {k state : Nat} (u : Bit) (hk : 1 ≤ k) (h : state < numStates k) :
    combinedIndex k state u < 2 ^ k := by
  rw [combinedIndex_eq u h, two_pow_double hk]
  cases u <;> simp <;> omega

theorem nextState_eq {k state : Nat} (u : Bit) (hk : 2 ≤ k) (h : state < numStates k) :
    nextState k state u = state / 2 + u.toNat * 2 ^ (k - 2) := by
  rw [nextState, Nat.shiftRight_eq_div_pow, pow_one]
  exact or_shiftLeft_bit u (by rw [numStates_double hk] at h; omega)

/-! ### Predecessors and the top bit (R121) -/

theorem and_stateMask (k t : Nat) : t &&& stateMask k = t % 2 ^ (k - 2) := Nat.and_two_pow_sub_one_eq_mod _ _

theorem pred0_eq (k t : Nat) : pred0 k t = 2 * (t % 2 ^ (k - 2)) := by
  rw [pred0, and_stateMask, Nat.or_zero, Nat.shiftLeft_eq]; omega

theorem pred1_eq (k t : Nat) : pred1 k t = 2 * (t % 2 ^ (k - 2)) + 1 := by
  rw [pred1, and_stateMask, ← Nat.shiftLeft_add_eq_or_of_lt (show 1 < 2 ^ 1 by decide), Nat.shiftLeft_eq]; omega

theorem pred0_lt {k t : Nat} (hk : 2 ≤ k) : pred0 k t < numStates k := by
  have := Nat.mod_lt t (Nat.two_pow_pos (k - 2))
  rw [pred0_eq, numStates_double hk]; omega

theorem pred1_lt {k t : Nat} (hk : 2 ≤ k) : pred1 k t < numStates k := by
  have := Nat.mod_lt t (Nat.two_pow_pos (k - 2))
  rw [pred1_eq, numStates_double hk]; omega

/-- The top bit of a state is the state shifted down to it (R121, R141). -/
theorem topBit_toNat {k t : Nat} (hk : 2 ≤ k) (h : t < numStates k) : (topBit k t).toNat = t / 2 ^ (k - 2) := by
  have hlt : t / 2 ^ (k - 2) < 2 := by
    rw [Nat.div_lt_iff_lt_mul (Nat.two_pow_pos _)]; rw [numStates_double hk] at h; exact h
  rw [topBit, Nat.testBit_eq_decide_div_mod_eq]
  interval_cases t / 2 ^ (k - 2) <;> rfl

/-- The top bit of a state and its remaining bits make it up. -/
theorem state_split {k t : Nat} (hk : 2 ≤ k) (h : t < numStates k) :
    t = (topBit k t).toNat * 2 ^ (k - 2) + t % 2 ^ (k - 2) := by
  rw [topBit_toNat hk h, mul_comm]; exact (Nat.div_add_mod _ _).symm

/-! ### Groups (R17, R56) -/

theorem hd_le_left : ∀ a b : List Bit, hd a b ≤ a.length
  | [], _ => Nat.zero_le _
  | _ :: _, [] => Nat.zero_le _
  | a :: as, b :: bs => by
    have := hd_le_left as bs
    have hb : (a != b).toNat ≤ 1 := Bool.toNat_le _
    simp only [hd, List.length_cons]; omega

theorem hd_le_right : ∀ a b : List Bit, hd a b ≤ b.length
  | [], _ => Nat.zero_le _
  | _ :: _, [] => Nat.zero_le _
  | a :: as, b :: bs => by
    have := hd_le_right as bs
    have hb : (a != b).toNat ≤ 1 := Bool.toNat_le _
    simp only [hd, List.length_cons]; omega

theorem hd_self : ∀ a : List Bit, hd a a = 0
  | [] => rfl
  | a :: as => by simp [hd, hd_self as]

/-- Two sequences of one length at distance 0 are the same. -/
theorem eq_of_hd_eq_zero : ∀ {a b : List Bit}, a.length = b.length → hd a b = 0 → a = b
  | [], [], _, _ => rfl
  | a :: as, b :: bs, hl, h => by
    have hab : (a != b).toNat = 0 := by simp only [hd] at h; omega
    have has : hd as bs = 0 := by simp only [hd] at h; omega
    have : a = b := by simpa using hab
    rw [this, eq_of_hd_eq_zero (by simpa using hl) has]

/-- Distances add up over sequences cut at the same place. -/
theorem hd_append : ∀ {a b c d : List Bit}, a.length = b.length → hd (a ++ c) (b ++ d) = hd a b + hd c d
  | [], [], _, _, _ => by simp [hd]
  | a :: as, b :: bs, c, d, h => by
    have := hd_append (a := as) (b := bs) (c := c) (d := d) (by simpa using h)
    simp only [List.cons_append, hd, this]; omega

theorem padGroup_length {n : Nat} {bits : List Bit} (h : bits.length ≤ n) : (padGroup n bits).length = n := by
  simp [padGroup]; omega

theorem padGroup_full {n : Nat} {bits : List Bit} (h : bits.length = n) : padGroup n bits = bits := by
  simp [padGroup, h]

/-! ### Bit counts and reversal (R17, R90) -/

theorem popcountBelow_le (width x : Nat) : popcountBelow width x ≤ width := by
  induction width with
  | zero => simp [popcountBelow]
  | succ w ih =>
    have : (x.testBit w).toNat ≤ 1 := Bool.toNat_le _
    simp only [popcountBelow]; omega

/-- Positions above a number's highest bit count nothing. -/
theorem popcountBelow_stable {w v x : Nat} (hx : x < 2 ^ w) (hv : w ≤ v) : popcountBelow v x = popcountBelow w x := by
  induction v with
  | zero => simp [Nat.le_zero.1 hv]
  | succ v ih =>
    rcases Nat.lt_or_ge w (v + 1) with h | h
    · have hb : x.testBit v = false :=
        Nat.testBit_eq_false_of_lt (lt_of_lt_of_le hx (Nat.pow_le_pow_right (by decide) (by omega)))
      simp [popcountBelow, hb, ih (by omega)]
    · rw [show w = v + 1 by omega]

/-- `popcount` counts the bits below any width the number fits (R17). -/
theorem popcount_eq_below {w x : Nat} (hx : x < 2 ^ w) : popcount x = popcountBelow w x := by
  have h : x < 2 ^ (x.log2 + 1) := Nat.lt_log2_self
  rcases Nat.le_total w (x.log2 + 1) with hle | hle
  · exact popcountBelow_stable hx hle
  · exact (popcountBelow_stable h hle).symm

@[simp] theorem popcount_zero : popcount 0 = 0 := by decide

@[simp] theorem parity_zero : parity 0 = false := by decide

/-- The table entry of index 0 is 0 for every polynomial (R91). -/
@[simp] theorem entry_zero (k p : Nat) : entry k p 0 = false := by simp [entry]

@[simp] theorem outputTable_length (k : Nat) (polys : List Nat) : (outputTable k polys).length = 2 ^ k := by
  simp [outputTable]

/-- The output table, entry by entry (R91, R98). -/
theorem outputTable_getD {k i : Nat} (polys : List Nat) (hi : i < 2 ^ k) (d : List Bit) :
    (outputTable k polys).getD i d = polys.map fun p => entry k p i := by
  simp [outputTable, List.getD_eq_getElem?_getD, List.getElem?_map, List.getElem?_range hi]

end Sys2Proof.Machine
end

