-- ==== Sys2Proof/Laws/State.lean ====
section
/-! SUPPORT. One lemma per field per update of the state: what each named operation leaves in each field. -/

namespace Sys2Proof.Machine

/-! ### Fault entry (R176) -/

@[simp] theorem raise_mode (c : Cause) (w : Word) (s : State) : (raise c w s).mode = .failed := rfl
@[simp] theorem raise_err (c : Cause) (w : Word) (s : State) : (raise c w s).err = c.code := rfl
@[simp] theorem raise_errcmd (c : Cause) (w : Word) (s : State) : (raise c w s).errcmd = w := rfl
@[simp] theorem raise_res (c : Cause) (w : Word) (s : State) : (raise c w s).res = s.res := rfl
@[simp] theorem raise_k (c : Cause) (w : Word) (s : State) : (raise c w s).k = s.k := rfl
@[simp] theorem raise_n (c : Cause) (w : Word) (s : State) : (raise c w s).n = s.n := rfl
@[simp] theorem raise_g (c : Cause) (w : Word) (s : State) : (raise c w s).g = s.g := rfl
@[simp] theorem raise_out (c : Cause) (w : Word) (s : State) : (raise c w s).out = s.out := rfl
@[simp] theorem raise_es (c : Cause) (w : Word) (s : State) : (raise c w s).es = s.es := rfl
@[simp] theorem raise_encOut (c : Cause) (w : Word) (s : State) : (raise c w s).encOut = s.encOut := rfl
@[simp] theorem raise_gb (c : Cause) (w : Word) (s : State) : (raise c w s).gb = s.gb := rfl
@[simp] theorem raise_pm (c : Cause) (w : Word) (s : State) : (raise c w s).pm = s.pm := rfl
@[simp] theorem raise_tr (c : Cause) (w : Word) (s : State) : (raise c w s).tr = s.tr := rfl
@[simp] theorem raise_decOut (c : Cause) (w : Word) (s : State) : (raise c w s).decOut = s.decOut := rfl
@[simp] theorem raise_config (c : Cause) (w : Word) (s : State) : (raise c w s).config = s.config := rfl
@[simp] theorem raise_pending (c : Cause) (w : Word) (s : State) : (raise c w s).pending = s.pending := rfl

/-! ### Reset (R190 to R193) -/

@[simp] theorem hostReset_mode (s : State) : (hostReset s).mode = .unconfigured := rfl
@[simp] theorem hostReset_err (s : State) : (hostReset s).err = 0 := rfl
@[simp] theorem hostReset_errcmd (s : State) : (hostReset s).errcmd = 0 := rfl
@[simp] theorem hostReset_res (s : State) : (hostReset s).res = 0 := rfl
@[simp] theorem hostReset_k (s : State) : (hostReset s).k = 0 := rfl
@[simp] theorem hostReset_n (s : State) : (hostReset s).n = 0 := rfl
@[simp] theorem hostReset_g (s : State) : (hostReset s).g = [] := rfl
@[simp] theorem hostReset_out (s : State) : (hostReset s).out = [] := rfl
@[simp] theorem hostReset_es (s : State) : (hostReset s).es = 0 := rfl
@[simp] theorem hostReset_encOut (s : State) : (hostReset s).encOut = [] := rfl
@[simp] theorem hostReset_gb (s : State) : (hostReset s).gb = [] := rfl
@[simp] theorem hostReset_pm (s : State) : (hostReset s).pm = [] := rfl
@[simp] theorem hostReset_tr (s : State) : (hostReset s).tr = [] := rfl
@[simp] theorem hostReset_decOut (s : State) : (hostReset s).decOut = [] := rfl
@[simp] theorem hostReset_config (s : State) : (hostReset s).config = s.config := rfl
@[simp] theorem hostReset_pending (s : State) : (hostReset s).pending = s.pending := rfl

/-! ### The start of an Encode call (R111) -/

@[simp] theorem startEncoder_mode (s : State) : s.startEncoder.mode = s.mode := rfl
@[simp] theorem startEncoder_err (s : State) : s.startEncoder.err = s.err := rfl
@[simp] theorem startEncoder_errcmd (s : State) : s.startEncoder.errcmd = s.errcmd := rfl
@[simp] theorem startEncoder_res (s : State) : s.startEncoder.res = s.res := rfl
@[simp] theorem startEncoder_k (s : State) : s.startEncoder.k = s.k := rfl
@[simp] theorem startEncoder_n (s : State) : s.startEncoder.n = s.n := rfl
@[simp] theorem startEncoder_g (s : State) : s.startEncoder.g = s.g := rfl
@[simp] theorem startEncoder_out (s : State) : s.startEncoder.out = s.out := rfl
@[simp] theorem startEncoder_es (s : State) : s.startEncoder.es = 0 := rfl
@[simp] theorem startEncoder_encOut (s : State) : s.startEncoder.encOut = s.encOut := rfl
@[simp] theorem startEncoder_gb (s : State) : s.startEncoder.gb = s.gb := rfl
@[simp] theorem startEncoder_pm (s : State) : s.startEncoder.pm = s.pm := rfl
@[simp] theorem startEncoder_tr (s : State) : s.startEncoder.tr = s.tr := rfl
@[simp] theorem startEncoder_decOut (s : State) : s.startEncoder.decOut = s.decOut := rfl
@[simp] theorem startEncoder_config (s : State) : s.startEncoder.config = s.config := rfl
@[simp] theorem startEncoder_pending (s : State) : s.startEncoder.pending = s.pending := rfl

/-! ### The start of a Decode call (R122) -/

@[simp] theorem startDecoder_mode (s : State) : s.startDecoder.mode = s.mode := rfl
@[simp] theorem startDecoder_err (s : State) : s.startDecoder.err = s.err := rfl
@[simp] theorem startDecoder_errcmd (s : State) : s.startDecoder.errcmd = s.errcmd := rfl
@[simp] theorem startDecoder_res (s : State) : s.startDecoder.res = s.res := rfl
@[simp] theorem startDecoder_k (s : State) : s.startDecoder.k = s.k := rfl
@[simp] theorem startDecoder_n (s : State) : s.startDecoder.n = s.n := rfl
@[simp] theorem startDecoder_g (s : State) : s.startDecoder.g = s.g := rfl
@[simp] theorem startDecoder_out (s : State) : s.startDecoder.out = s.out := rfl
@[simp] theorem startDecoder_es (s : State) : s.startDecoder.es = s.es := rfl
@[simp] theorem startDecoder_encOut (s : State) : s.startDecoder.encOut = s.encOut := rfl
@[simp] theorem startDecoder_gb (s : State) : s.startDecoder.gb = [] := rfl
@[simp] theorem startDecoder_pm (s : State) : s.startDecoder.pm = initialMetrics s.k := rfl
@[simp] theorem startDecoder_tr (s : State) : s.startDecoder.tr = [] := rfl
@[simp] theorem startDecoder_decOut (s : State) : s.startDecoder.decOut = s.decOut := rfl
@[simp] theorem startDecoder_config (s : State) : s.startDecoder.config = s.config := rfl
@[simp] theorem startDecoder_pending (s : State) : s.startDecoder.pending = s.pending := rfl

/-! ### Appending to ENC_OUT (R32) -/

@[simp] theorem emitEncoded_mode (bits : List Bit) (s : State) : (s.emitEncoded bits).mode = s.mode := rfl
@[simp] theorem emitEncoded_err (bits : List Bit) (s : State) : (s.emitEncoded bits).err = s.err := rfl
@[simp] theorem emitEncoded_errcmd (bits : List Bit) (s : State) : (s.emitEncoded bits).errcmd = s.errcmd := rfl
@[simp] theorem emitEncoded_res (bits : List Bit) (s : State) : (s.emitEncoded bits).res = s.res := rfl
@[simp] theorem emitEncoded_k (bits : List Bit) (s : State) : (s.emitEncoded bits).k = s.k := rfl
@[simp] theorem emitEncoded_n (bits : List Bit) (s : State) : (s.emitEncoded bits).n = s.n := rfl
@[simp] theorem emitEncoded_g (bits : List Bit) (s : State) : (s.emitEncoded bits).g = s.g := rfl
@[simp] theorem emitEncoded_out (bits : List Bit) (s : State) : (s.emitEncoded bits).out = s.out := rfl
@[simp] theorem emitEncoded_es (bits : List Bit) (s : State) : (s.emitEncoded bits).es = s.es := rfl
@[simp] theorem emitEncoded_encOut (bits : List Bit) (s : State) : (s.emitEncoded bits).encOut = s.encOut ++ bits := rfl
@[simp] theorem emitEncoded_gb (bits : List Bit) (s : State) : (s.emitEncoded bits).gb = s.gb := rfl
@[simp] theorem emitEncoded_pm (bits : List Bit) (s : State) : (s.emitEncoded bits).pm = s.pm := rfl
@[simp] theorem emitEncoded_tr (bits : List Bit) (s : State) : (s.emitEncoded bits).tr = s.tr := rfl
@[simp] theorem emitEncoded_decOut (bits : List Bit) (s : State) : (s.emitEncoded bits).decOut = s.decOut := rfl
@[simp] theorem emitEncoded_config (bits : List Bit) (s : State) : (s.emitEncoded bits).config = s.config := rfl
@[simp] theorem emitEncoded_pending (bits : List Bit) (s : State) : (s.emitEncoded bits).pending = s.pending := rfl

/-! ### Appending to DEC_OUT (R37) -/

@[simp] theorem emitDecoded_mode (bits : List Bit) (s : State) : (s.emitDecoded bits).mode = s.mode := rfl
@[simp] theorem emitDecoded_err (bits : List Bit) (s : State) : (s.emitDecoded bits).err = s.err := rfl
@[simp] theorem emitDecoded_errcmd (bits : List Bit) (s : State) : (s.emitDecoded bits).errcmd = s.errcmd := rfl
@[simp] theorem emitDecoded_res (bits : List Bit) (s : State) : (s.emitDecoded bits).res = s.res := rfl
@[simp] theorem emitDecoded_k (bits : List Bit) (s : State) : (s.emitDecoded bits).k = s.k := rfl
@[simp] theorem emitDecoded_n (bits : List Bit) (s : State) : (s.emitDecoded bits).n = s.n := rfl
@[simp] theorem emitDecoded_g (bits : List Bit) (s : State) : (s.emitDecoded bits).g = s.g := rfl
@[simp] theorem emitDecoded_out (bits : List Bit) (s : State) : (s.emitDecoded bits).out = s.out := rfl
@[simp] theorem emitDecoded_es (bits : List Bit) (s : State) : (s.emitDecoded bits).es = s.es := rfl
@[simp] theorem emitDecoded_encOut (bits : List Bit) (s : State) : (s.emitDecoded bits).encOut = s.encOut := rfl
@[simp] theorem emitDecoded_gb (bits : List Bit) (s : State) : (s.emitDecoded bits).gb = s.gb := rfl
@[simp] theorem emitDecoded_pm (bits : List Bit) (s : State) : (s.emitDecoded bits).pm = s.pm := rfl
@[simp] theorem emitDecoded_tr (bits : List Bit) (s : State) : (s.emitDecoded bits).tr = s.tr := rfl
@[simp] theorem emitDecoded_decOut (bits : List Bit) (s : State) : (s.emitDecoded bits).decOut = s.decOut ++ bits := rfl
@[simp] theorem emitDecoded_config (bits : List Bit) (s : State) : (s.emitDecoded bits).config = s.config := rfl
@[simp] theorem emitDecoded_pending (bits : List Bit) (s : State) : (s.emitDecoded bits).pending = s.pending := rfl

/-! ### Storing a polynomial (R96) -/

@[simp] theorem appendPoly_mode (p : Nat) (s : State) : (s.appendPoly p).mode = s.mode := rfl
@[simp] theorem appendPoly_err (p : Nat) (s : State) : (s.appendPoly p).err = s.err := rfl
@[simp] theorem appendPoly_errcmd (p : Nat) (s : State) : (s.appendPoly p).errcmd = s.errcmd := rfl
@[simp] theorem appendPoly_res (p : Nat) (s : State) : (s.appendPoly p).res = s.res := rfl
@[simp] theorem appendPoly_k (p : Nat) (s : State) : (s.appendPoly p).k = s.k := rfl
@[simp] theorem appendPoly_n (p : Nat) (s : State) : (s.appendPoly p).n = s.n + 1 := rfl
@[simp] theorem appendPoly_g (p : Nat) (s : State) : (s.appendPoly p).g = s.polys ++ [p] := rfl
@[simp] theorem appendPoly_out (p : Nat) (s : State) : (s.appendPoly p).out = s.out := rfl
@[simp] theorem appendPoly_es (p : Nat) (s : State) : (s.appendPoly p).es = s.es := rfl
@[simp] theorem appendPoly_encOut (p : Nat) (s : State) : (s.appendPoly p).encOut = s.encOut := rfl
@[simp] theorem appendPoly_gb (p : Nat) (s : State) : (s.appendPoly p).gb = s.gb := rfl
@[simp] theorem appendPoly_pm (p : Nat) (s : State) : (s.appendPoly p).pm = s.pm := rfl
@[simp] theorem appendPoly_tr (p : Nat) (s : State) : (s.appendPoly p).tr = s.tr := rfl
@[simp] theorem appendPoly_decOut (p : Nat) (s : State) : (s.appendPoly p).decOut = s.decOut := rfl
@[simp] theorem appendPoly_config (p : Nat) (s : State) : (s.appendPoly p).config = s.config := rfl
@[simp] theorem appendPoly_pending (p : Nat) (s : State) : (s.appendPoly p).pending = s.pending := rfl

/-! ### One encoder step (R112) -/

@[simp] theorem encodeBit_mode (b : Bit) (s : State) : (encodeBit b s).mode = s.mode := rfl
@[simp] theorem encodeBit_err (b : Bit) (s : State) : (encodeBit b s).err = s.err := rfl
@[simp] theorem encodeBit_errcmd (b : Bit) (s : State) : (encodeBit b s).errcmd = s.errcmd := rfl
@[simp] theorem encodeBit_res (b : Bit) (s : State) : (encodeBit b s).res = s.res := rfl
@[simp] theorem encodeBit_k (b : Bit) (s : State) : (encodeBit b s).k = s.k := rfl
@[simp] theorem encodeBit_n (b : Bit) (s : State) : (encodeBit b s).n = s.n := rfl
@[simp] theorem encodeBit_g (b : Bit) (s : State) : (encodeBit b s).g = s.g := rfl
@[simp] theorem encodeBit_out (b : Bit) (s : State) : (encodeBit b s).out = s.out := rfl
@[simp] theorem encodeBit_es (b : Bit) (s : State) : (encodeBit b s).es = nextState s.k s.es b := rfl
@[simp] theorem encodeBit_encOut (b : Bit) (s : State) : (encodeBit b s).encOut = s.encOut ++ s.output s.es b := rfl
@[simp] theorem encodeBit_gb (b : Bit) (s : State) : (encodeBit b s).gb = s.gb := rfl
@[simp] theorem encodeBit_pm (b : Bit) (s : State) : (encodeBit b s).pm = s.pm := rfl
@[simp] theorem encodeBit_tr (b : Bit) (s : State) : (encodeBit b s).tr = s.tr := rfl
@[simp] theorem encodeBit_decOut (b : Bit) (s : State) : (encodeBit b s).decOut = s.decOut := rfl
@[simp] theorem encodeBit_config (b : Bit) (s : State) : (encodeBit b s).config = s.config := rfl
@[simp] theorem encodeBit_pending (b : Bit) (s : State) : (encodeBit b s).pending = s.pending := rfl

/-! ### The traceback (R141) -/

@[simp] theorem traceback_mode (s : State) : (traceback s).mode = s.mode := rfl
@[simp] theorem traceback_err (s : State) : (traceback s).err = s.err := rfl
@[simp] theorem traceback_errcmd (s : State) : (traceback s).errcmd = s.errcmd := rfl
@[simp] theorem traceback_res (s : State) : (traceback s).res = s.res := rfl
@[simp] theorem traceback_k (s : State) : (traceback s).k = s.k := rfl
@[simp] theorem traceback_n (s : State) : (traceback s).n = s.n := rfl
@[simp] theorem traceback_g (s : State) : (traceback s).g = s.g := rfl
@[simp] theorem traceback_out (s : State) : (traceback s).out = s.out := rfl
@[simp] theorem traceback_es (s : State) : (traceback s).es = s.es := rfl
@[simp] theorem traceback_encOut (s : State) : (traceback s).encOut = s.encOut := rfl
@[simp] theorem traceback_gb (s : State) : (traceback s).gb = s.gb := rfl
@[simp] theorem traceback_pm (s : State) : (traceback s).pm = s.pm := rfl
@[simp] theorem traceback_tr (s : State) : (traceback s).tr = s.tr := rfl
@[simp] theorem traceback_decOut (s : State) : (traceback s).decOut = s.decOut ++ tracebackBits s.k s.pm s.tr := rfl
@[simp] theorem traceback_config (s : State) : (traceback s).config = s.config := rfl
@[simp] theorem traceback_pending (s : State) : (traceback s).pending = s.pending := rfl

/-! ### Issuing moves (R203) -/

@[simp] theorem issue_mode (moves : List HostMove) (s : State) : (s.issue moves).mode = s.mode := rfl
@[simp] theorem issue_err (moves : List HostMove) (s : State) : (s.issue moves).err = s.err := rfl
@[simp] theorem issue_errcmd (moves : List HostMove) (s : State) : (s.issue moves).errcmd = s.errcmd := rfl
@[simp] theorem issue_res (moves : List HostMove) (s : State) : (s.issue moves).res = s.res := rfl
@[simp] theorem issue_k (moves : List HostMove) (s : State) : (s.issue moves).k = s.k := rfl
@[simp] theorem issue_n (moves : List HostMove) (s : State) : (s.issue moves).n = s.n := rfl
@[simp] theorem issue_g (moves : List HostMove) (s : State) : (s.issue moves).g = s.g := rfl
@[simp] theorem issue_out (moves : List HostMove) (s : State) : (s.issue moves).out = s.out := rfl
@[simp] theorem issue_es (moves : List HostMove) (s : State) : (s.issue moves).es = s.es := rfl
@[simp] theorem issue_encOut (moves : List HostMove) (s : State) : (s.issue moves).encOut = s.encOut := rfl
@[simp] theorem issue_gb (moves : List HostMove) (s : State) : (s.issue moves).gb = s.gb := rfl
@[simp] theorem issue_pm (moves : List HostMove) (s : State) : (s.issue moves).pm = s.pm := rfl
@[simp] theorem issue_tr (moves : List HostMove) (s : State) : (s.issue moves).tr = s.tr := rfl
@[simp] theorem issue_decOut (moves : List HostMove) (s : State) : (s.issue moves).decOut = s.decOut := rfl
@[simp] theorem issue_config (moves : List HostMove) (s : State) : (s.issue moves).config = s.config := rfl
@[simp] theorem issue_pending (moves : List HostMove) (s : State) : (s.issue moves).pending = s.pending ++ moves := rfl

/-! ### Issuing a move as the next one -/

@[simp] theorem issueFirst_mode (move : HostMove) (s : State) : (s.issueFirst move).mode = s.mode := rfl
@[simp] theorem issueFirst_err (move : HostMove) (s : State) : (s.issueFirst move).err = s.err := rfl
@[simp] theorem issueFirst_errcmd (move : HostMove) (s : State) : (s.issueFirst move).errcmd = s.errcmd := rfl
@[simp] theorem issueFirst_res (move : HostMove) (s : State) : (s.issueFirst move).res = s.res := rfl
@[simp] theorem issueFirst_k (move : HostMove) (s : State) : (s.issueFirst move).k = s.k := rfl
@[simp] theorem issueFirst_n (move : HostMove) (s : State) : (s.issueFirst move).n = s.n := rfl
@[simp] theorem issueFirst_g (move : HostMove) (s : State) : (s.issueFirst move).g = s.g := rfl
@[simp] theorem issueFirst_out (move : HostMove) (s : State) : (s.issueFirst move).out = s.out := rfl
@[simp] theorem issueFirst_es (move : HostMove) (s : State) : (s.issueFirst move).es = s.es := rfl
@[simp] theorem issueFirst_encOut (move : HostMove) (s : State) : (s.issueFirst move).encOut = s.encOut := rfl
@[simp] theorem issueFirst_gb (move : HostMove) (s : State) : (s.issueFirst move).gb = s.gb := rfl
@[simp] theorem issueFirst_pm (move : HostMove) (s : State) : (s.issueFirst move).pm = s.pm := rfl
@[simp] theorem issueFirst_tr (move : HostMove) (s : State) : (s.issueFirst move).tr = s.tr := rfl
@[simp] theorem issueFirst_decOut (move : HostMove) (s : State) : (s.issueFirst move).decOut = s.decOut := rfl
@[simp] theorem issueFirst_config (move : HostMove) (s : State) : (s.issueFirst move).config = s.config := rfl
@[simp] theorem issueFirst_pending (move : HostMove) (s : State) : (s.issueFirst move).pending = move :: s.pending := rfl

/-! ### The state after reset (R191 to R193) -/

@[simp] theorem resetWith_mode (c : Config) : (State.resetWith c).mode = .unconfigured := rfl
@[simp] theorem resetWith_err (c : Config) : (State.resetWith c).err = 0 := rfl
@[simp] theorem resetWith_errcmd (c : Config) : (State.resetWith c).errcmd = 0 := rfl
@[simp] theorem resetWith_res (c : Config) : (State.resetWith c).res = 0 := rfl
@[simp] theorem resetWith_encOut (c : Config) : (State.resetWith c).encOut = [] := rfl
@[simp] theorem resetWith_decOut (c : Config) : (State.resetWith c).decOut = [] := rfl
@[simp] theorem resetWith_config (c : Config) : (State.resetWith c).config = c := rfl
@[simp] theorem resetWith_pending (c : Config) : (State.resetWith c).pending = [] := rfl

end Sys2Proof.Machine
end

