-- ==== Sys2Proof/Laws/Ops.lean ====
section
/-! SUPPORT. What each shared operation can do, said once: the checks around a command, the trellis step, the padding step,
the host's moves and the step. -/

namespace Sys2Proof.Machine

/-! ### The checks around a command (R178) -/

/-- Everything a legal command can do: nothing in `FAILED`, `WRONG_MODE` outside its mode, and in its mode what its own pseudocode
does or the fault its own checks name. -/
theorem runCommand_cases {i : Instr} {body : State → Except Cause State} {s t : State}
    (h : runCommand i body s = .next t) :
    (s.mode = .failed ∧ t = s) ∨
    (s.mode ≠ .failed ∧ s.mode ≠ i.acceptedIn ∧ t = raise .wrongMode (encode i) s) ∨
    (s.mode ≠ .failed ∧ s.mode = i.acceptedIn ∧ body s = .ok t) ∨
    (s.mode ≠ .failed ∧ s.mode = i.acceptedIn ∧ ∃ c, body s = .error c ∧ t = raise c (encode i) s) := by
  unfold runCommand at h
  split at h
  · next hf => exact .inl ⟨hf, by simpa using h.symm⟩
  · next hf =>
    split at h
    · next hm => exact .inr (.inl ⟨hf, hm, by simpa using h.symm⟩)
    · next hm =>
      split at h
      · next u hb => exact .inr (.inr (.inl ⟨hf, by simpa using hm, by simpa [hb] using h⟩))
      · next c hb => exact .inr (.inr (.inr ⟨hf, by simpa using hm, c, hb, by simpa using h.symm⟩))

/-- A command is ignored in `FAILED` (R179). -/
theorem runCommand_failed {i : Instr} {body : State → Except Cause State} {s : State} (h : s.mode = .failed) :
    runCommand i body s = .next s := by
  simp [runCommand, h]

/-- A command outside its mode raises `WRONG_MODE` (R175). -/
theorem runCommand_wrongMode {i : Instr} {body : State → Except Cause State} {s : State} (hf : s.mode ≠ .failed)
    (hm : s.mode ≠ i.acceptedIn) : runCommand i body s = .next (raise .wrongMode (encode i) s) := by
  simp [runCommand, hf, hm]

/-- No command is accepted in `FAILED` (R73). -/
theorem acceptedIn_ne_failed (i : Instr) : i.acceptedIn ≠ .failed := by
  cases i <;> simp [Instr.acceptedIn]

/-- A command in its mode whose checks pass does what its pseudocode does (R178). -/
theorem runCommand_ok {i : Instr} {body : State → Except Cause State} {s t : State} (hm : s.mode = i.acceptedIn)
    (hb : body s = .ok t) : runCommand i body s = .next t := by
  simp [runCommand, hm, hb, acceptedIn_ne_failed]

/-- A command in its mode whose checks fail raises the cause they name, from the state before the command (R176, R178). -/
theorem runCommand_error {i : Instr} {body : State → Except Cause State} {s : State} {c : Cause}
    (hm : s.mode = i.acceptedIn) (hb : body s = .error c) :
    runCommand i body s = .next (raise c (encode i) s) := by
  simp [runCommand, hm, hb, acceptedIn_ne_failed]

/-- A command always answers a next state. -/
theorem runCommand_isNext (i : Instr) (body : State → Except Cause State) (s : State) :
    ∃ t, runCommand i body s = .next t := by
  unfold runCommand
  repeat' split
  all_goals exact ⟨_, rfl⟩

/-- The pseudocode of each command (R95 to R142): what `exec` runs under the checks. -/
def commandBody : Instr → State → Except Cause State
  | .cfgBegin k => beginConfig k
  | .cfgPoly p => addPoly p
  | .cfgCommit => commitConfig
  | .cfgNpar => readParityCount
  | .encStart => fun s => .ok s.startEncoder
  | .encBit b => fun s => .ok (encodeBit b s)
  | .decStart => fun s => .ok s.startDecoder
  | .decBit b => receiveBit b
  | .decFlush => flushGroup
  | .decTrace => endDecode

/-- Every meaning is its command's pseudocode under the checks. -/
theorem exec_eq_runCommand (i : Instr) (s : State) : exec i s = runCommand i (commandBody i) s := by
  cases i <;> rfl

/-- Everything `exec` can do (R178). -/
theorem exec_cases {i : Instr} {s t : State} (h : exec i s = .next t) :
    (s.mode = .failed ∧ t = s) ∨
    (s.mode ≠ .failed ∧ s.mode ≠ i.acceptedIn ∧ t = raise .wrongMode (encode i) s) ∨
    (s.mode ≠ .failed ∧ s.mode = i.acceptedIn ∧ commandBody i s = .ok t) ∨
    (s.mode ≠ .failed ∧ s.mode = i.acceptedIn ∧ ∃ c, commandBody i s = .error c ∧ t = raise c (encode i) s) :=
  runCommand_cases (exec_eq_runCommand i s ▸ h)

/-- Every command answers a next state, in every state. -/
theorem exec_isNext (i : Instr) (s : State) : ∃ t, exec i s = .next t := by
  rw [exec_eq_runCommand]; exact runCommand_isNext _ _ _

/-- A cause code is never 0, which is "no fault" (R170). -/
theorem Cause.code_ne_zero (c : Cause) : c.code ≠ 0 := by cases c <;> decide

/-- An illegal word: ignored in `FAILED`, `ILLEGAL_COMMAND` elsewhere (R173, R178). -/
theorem runIllegal_cases {w : Word} {s t : State} (h : runIllegal w s = .next t) :
    (s.mode = .failed ∧ t = s) ∨ (s.mode ≠ .failed ∧ t = raise .illegalCommand w s) := by
  unfold runIllegal at h
  split at h
  · next hf => exact .inl ⟨hf, by simpa using h.symm⟩
  · next hf => exact .inr ⟨hf, by simpa using h.symm⟩

/-! ### Capacity (R9, R174) -/

theorem isFull_iff {b : Bound} {count : Nat} : b.isFull count = true ↔ b = .atMost count := by
  cases b with
  | unbounded => simp [Bound.isFull]
  | atMost m => simpa [Bound.isFull] using eq_comm

theorem isFull_false_iff {b : Bound} {count : Nat} : b.isFull count = false ↔ b ≠ .atMost count := by
  rw [← Bool.not_eq_true, isFull_iff]

/-! ### The trellis step and the padding step (R126, R124) -/

/-- Everything a trellis step can do. -/
theorem trellisStep_cases {grp : List Bit} {s : State} :
    (s.config.tmax = .atMost s.tr.length ∧ trellisStep grp s = .error .capacity) ∨
    (s.config.tmax ≠ .atMost s.tr.length ∧ trellisStep grp s = .ok { s with
      pm := (stepColumn s.k s.output s.pm grp).map Prod.fst
      tr := s.tr ++ [(stepColumn s.k s.output s.pm grp).map Prod.snd] }) := by
  unfold trellisStep
  split
  · next h => exact .inl ⟨isFull_iff.1 h, rfl⟩
  · next h => exact .inr ⟨isFull_false_iff.1 (by simpa using h), rfl⟩

/-- Everything a trellis step on a complete group can do (R123, R124). -/
theorem consumeGroup_cases {grp : List Bit} {s : State} :
    (s.config.tmax = .atMost s.tr.length ∧ consumeGroup grp s = .error .capacity) ∨
    (s.config.tmax ≠ .atMost s.tr.length ∧ consumeGroup grp s = .ok { s with
      pm := (stepColumn s.k s.output s.pm grp).map Prod.fst
      tr := s.tr ++ [(stepColumn s.k s.output s.pm grp).map Prod.snd]
      gb := [] }) := by
  unfold consumeGroup
  rcases trellisStep_cases (grp := grp) (s := s) with ⟨hc, h⟩ | ⟨hc, h⟩
  · exact .inl ⟨hc, by rw [h]⟩
  · exact .inr ⟨hc, by rw [h]⟩

/-- Everything the padding step can do (R124). -/
theorem flushGroup_cases {s : State} :
    (s.gb = [] ∧ flushGroup s = .ok s) ∨
    (s.gb ≠ [] ∧ s.config.tmax = .atMost s.tr.length ∧ flushGroup s = .error .capacity) ∨
    (s.gb ≠ [] ∧ s.config.tmax ≠ .atMost s.tr.length ∧ flushGroup s = .ok { s with
      pm := (stepColumn s.k s.output s.pm (padGroup s.n s.gb)).map Prod.fst
      tr := s.tr ++ [(stepColumn s.k s.output s.pm (padGroup s.n s.gb)).map Prod.snd]
      gb := [] }) := by
  unfold flushGroup
  split
  · next h =>
    have hne : s.gb ≠ [] := by intro h0; simp [h0] at h
    rcases consumeGroup_cases (grp := padGroup s.n s.gb) (s := s) with ⟨hc, h⟩ | ⟨hc, h⟩
    · exact .inr (.inl ⟨hne, hc, h⟩)
    · exact .inr (.inr ⟨hne, hc, h⟩)
  · next h => exact .inl ⟨by simpa using h, rfl⟩

/-- Everything a received bit can do in `READY` (R123). -/
theorem receiveBit_cases {b : Bit} {s : State} :
    (s.gb.length + 1 < s.n ∧ receiveBit b s = .ok { s with gb := s.gb ++ [b] }) ∨
    (s.n ≤ s.gb.length + 1 ∧ receiveBit b s = consumeGroup (s.gb ++ [b]) s) := by
  unfold receiveBit
  by_cases h : s.gb.length + 1 < s.n
  · exact .inl ⟨h, by simp [h]⟩
  · exact .inr ⟨by omega, by simp [h]⟩

/-! ### Moves and steps (R61, R203) -/

theorem step_idle {s : State} (h : s.pending = []) : step s = .next s := by
  simp [step, takeMove, h]

theorem step_move {s : State} {move : HostMove} {later : List HostMove} (h : s.pending = move :: later) :
    step s = runMove move { s with pending := later } := by
  simp [step, takeMove, h]

/-- Everything a step can do. -/
theorem step_cases {s t : State} (h : step s = .next t) :
    (s.pending = [] ∧ t = s) ∨
    (∃ later, s.pending = .read :: later ∧ t = { s with pending := later }) ∨
    (∃ later, s.pending = .reset :: later ∧ t = hostReset { s with pending := later }) ∨
    (∃ w later e, s.pending = .command w :: later ∧ decode w = .illegal e ∧
      runIllegal w { s with pending := later } = .next t) ∨
    (∃ w later i, s.pending = .command w :: later ∧ decode w = .command i ∧
      exec i { s with pending := later } = .next t) := by
  cases hp : s.pending with
  | nil => exact .inl ⟨rfl, by simpa using ((step_idle hp).symm.trans h).symm⟩
  | cons move later =>
    rw [step_move hp] at h
    cases move with
    | read => exact .inr (.inl ⟨later, rfl, by simpa [runMove] using h.symm⟩)
    | reset => exact .inr (.inr (.inl ⟨later, rfl, by simpa [runMove] using h.symm⟩))
    | command w =>
      simp only [runMove, runWord] at h
      cases hd : decode w with
      | illegal e => exact .inr (.inr (.inr (.inl ⟨w, later, e, rfl, hd, by simpa [hd] using h⟩)))
      | command i => exact .inr (.inr (.inr (.inr ⟨w, later, i, rfl, hd, by simpa [hd] using h⟩)))

theorem runIllegal_isNext (w : Word) (s : State) : ∃ t, runIllegal w s = .next t := by
  unfold runIllegal
  split
  all_goals exact ⟨_, rfl⟩

theorem runMove_isNext (move : HostMove) (s : State) : ∃ t, runMove move s = .next t := by
  cases move with
  | command w =>
    simp only [runMove, runWord]
    split
    · exact exec_isNext _ _
    · exact runIllegal_isNext _ _
  | reset => exact ⟨_, rfl⟩
  | read => exact ⟨_, rfl⟩

/-- Every step answers a next state: the block never stops (R203). -/
theorem step_isNext (s : State) : ∃ t, step s = .next t := by
  cases hp : s.pending with
  | nil => exact ⟨s, step_idle hp⟩
  | cons move later => rw [step_move hp]; exact runMove_isNext _ _

end Sys2Proof.Machine
end

