-- ==== Sys2Proof/Laws/Trellis.lean ====
section
/-! SUPPORT. The order of metrics, the trellis step state by state, the first-minimum scan and the walk (R17, R126, R128, R141). -/

namespace Sys2Proof.Machine

/-! ### Metrics (R10, R17, R34) -/

@[simp] theorem addInf_inf (d : Nat) : addInf .inf d = .inf := rfl
@[simp] theorem addInf_fin (m d : Nat) : addInf (.fin m) d = .fin (m + d) := rfl
@[simp] theorem leInf_inf (a : Metric) : leInf a .inf = true := by cases a <;> rfl
@[simp] theorem leInf_inf_fin (b : Nat) : leInf .inf (.fin b) = false := rfl
@[simp] theorem leInf_fin_fin (a b : Nat) : leInf (.fin a) (.fin b) = decide (a ≤ b) := rfl

theorem leInf_refl (a : Metric) : leInf a a = true := by cases a <;> simp

theorem leInf_trans {a b c : Metric} (hab : leInf a b = true) (hbc : leInf b c = true) : leInf a c = true := by
  cases a <;> cases b <;> cases c <;> simp_all; omega

theorem leInf_total (a b : Metric) : leInf a b = true ∨ leInf b a = true := by
  cases a <;> cases b <;> simp; omega

theorem leInf_antisymm {a b : Metric} (hab : leInf a b = true) (hba : leInf b a = true) : a = b := by
  cases a <;> cases b <;> simp_all; omega

theorem ltInf_iff {a b : Metric} : ltInf a b = true ↔ leInf b a = false := by simp [ltInf]

theorem leInf_of_ltInf {a b : Metric} (h : ltInf a b = true) : leInf a b = true := by
  rcases leInf_total a b with h' | h'
  · exact h'
  · simp [ltInf, h'] at h

theorem ltInf_of_lt_of_le {a b c : Metric} (hab : ltInf a b = true) (hbc : leInf b c = true) : ltInf a c = true := by
  rw [ltInf_iff] at *
  by_contra h
  rw [leInf_trans hbc (by simpa using h)] at hab
  exact absurd hab (by decide)

@[simp] theorem addInf_eq_inf {m : Metric} {d : Nat} : addInf m d = .inf ↔ m = .inf := by cases m <;> simp

/-- A metric grows by an addition. -/
theorem leInf_addInf (m : Metric) (d : Nat) : leInf m (addInf m d) = true := by cases m <;> simp

/-- The compare-select keeps a smallest candidate (R128). -/
theorem compareSelect_cases (pm1 pm2 : Metric) (s0 s1 : Nat) :
    (leInf pm1 pm2 = true ∧ compareSelect pm1 s0 pm2 s1 = (pm1, s0)) ∨
    (leInf pm1 pm2 = false ∧ compareSelect pm1 s0 pm2 s1 = (pm2, s1)) := by
  unfold compareSelect
  cases h : leInf pm1 pm2 <;> simp

/-! ### The start of a decode call (R33) -/

@[simp] theorem initialMetrics_length (k : Nat) : (initialMetrics k).length = numStates k := by simp [initialMetrics]

theorem initialMetrics_get {k s : Nat} (h : s < numStates k) :
    (initialMetrics k)[s]? = some (if s = 0 then .fin 0 else .inf) := by
  simp [initialMetrics, List.getElem?_range h]

theorem metricAt_initial {k s : Nat} (h : s < numStates k) :
    metricAt (initialMetrics k) s = if s = 0 then .fin 0 else .inf := by
  simp [metricAt, List.getD_eq_getElem?_getD, initialMetrics_get h]

/-! ### The trellis step, state by state (R126) -/

section Step
variable {k : Nat} {output : Nat → Bit → List Bit} {pm : List Metric} {grp : List Bit}

@[simp] theorem stepColumn_length : (stepColumn k output pm grp).length = numStates k := by simp [stepColumn]

theorem stepColumn_fst_get {t : Nat} (h : t < numStates k) :
    ((stepColumn k output pm grp).map Prod.fst)[t]? = some (selectPredecessor k output pm grp t).1 := by
  simp [stepColumn, List.getElem?_range h]

theorem stepColumn_snd_get {t : Nat} (h : t < numStates k) :
    ((stepColumn k output pm grp).map Prod.snd)[t]? = some (selectPredecessor k output pm grp t).2 := by
  simp [stepColumn, List.getElem?_range h]

theorem metricAt_stepColumn {t : Nat} (h : t < numStates k) :
    metricAt ((stepColumn k output pm grp).map Prod.fst) t = (selectPredecessor k output pm grp t).1 := by
  rw [metricAt, List.getD_eq_getElem?_getD, stepColumn_fst_get h, Option.getD_some]

theorem predecessorAt_stepColumn {t : Nat} (h : t < numStates k) :
    predecessorAt ((stepColumn k output pm grp).map Prod.snd) t = (selectPredecessor k output pm grp t).2 := by
  rw [predecessorAt, List.getD_eq_getElem?_getD, stepColumn_snd_get h, Option.getD_some]

/-- What one target state gets: the candidate of the predecessor it records, which is no larger than either candidate (R126). -/
theorem selectPredecessor_spec (k : Nat) (output : Nat → Bit → List Bit) (pm : List Metric) (grp : List Bit) (t : Nat) :
    let r := selectPredecessor k output pm grp t
    (r.2 = pred0 k t ∨ r.2 = pred1 k t) ∧
    r.1 = candidate output pm grp r.2 (topBit k t) ∧
    leInf r.1 (candidate output pm grp (pred0 k t) (topBit k t)) = true ∧
    leInf r.1 (candidate output pm grp (pred1 k t) (topBit k t)) = true := by
  simp only [selectPredecessor]
  rcases compareSelect_cases (candidate output pm grp (pred0 k t) (topBit k t))
    (candidate output pm grp (pred1 k t) (topBit k t)) (pred0 k t) (pred1 k t) with ⟨h, he⟩ | ⟨h, he⟩
  · rw [he]; exact ⟨.inl rfl, rfl, leInf_refl _, h⟩
  · rw [he]
    refine ⟨.inr rfl, rfl, ?_, leInf_refl _⟩
    rcases leInf_total (candidate output pm grp (pred1 k t) (topBit k t))
      (candidate output pm grp (pred0 k t) (topBit k t)) with h' | h'
    · exact h'
    · rw [h'] at h; exact absurd h (by decide)

/-- A new metric is unreachable exactly when both predecessors are (R128). -/
theorem selectPredecessor_eq_inf {t : Nat} :
    (selectPredecessor k output pm grp t).1 = .inf ↔
      metricAt pm (pred0 k t) = .inf ∧ metricAt pm (pred1 k t) = .inf := by
  obtain ⟨hp, hc, h0, h1⟩ := selectPredecessor_spec k output pm grp t
  constructor
  · intro hi
    rw [hi] at h0 h1
    constructor
    · cases hm : metricAt pm (pred0 k t) with
      | inf => rfl
      | fin m => simp [candidate, hm] at h0
    · cases hm : metricAt pm (pred1 k t) with
      | inf => rfl
      | fin m => simp [candidate, hm] at h1
  · rintro ⟨h0', h1'⟩
    rw [hc, candidate, addInf_eq_inf]
    rcases hp with hp | hp <;> rw [hp] <;> assumption

/-- The recorded predecessor of a state that a step reaches was itself reached before it (R132). -/
theorem selectPredecessor_finite {t : Nat} (h : (selectPredecessor k output pm grp t).1 ≠ .inf) :
    metricAt pm (selectPredecessor k output pm grp t).2 ≠ .inf := by
  obtain ⟨-, hc, -, -⟩ := selectPredecessor_spec k output pm grp t
  intro hi
  exact h (by rw [hc, candidate, hi, addInf_inf])

end Step

/-! ### The first-minimum scan (R141) -/

/-- The scan over the states `1 .. count` keeps the first minimum of the states `0 .. count`. -/
theorem scan_firstMinimum (pm : List Metric) (count : Nat) :
    let best := (List.range' 1 count).foldl
      (fun best s => if ltInf (metricAt pm s) (metricAt pm best) then s else best) 0
    best ≤ count ∧ (∀ s ≤ count, leInf (metricAt pm best) (metricAt pm s) = true) ∧
      ∀ s < best, ltInf (metricAt pm best) (metricAt pm s) = true := by
  induction count with
  | zero =>
    refine ⟨Nat.le_refl _, fun s hs => ?_, fun s hs => absurd hs (Nat.not_lt_zero _)⟩
    rw [Nat.le_zero.1 hs]; exact leInf_refl _
  | succ count ih =>
    simp only [List.range'_concat, List.foldl_append, List.foldl_cons, List.foldl_nil] at ih ⊢
    generalize (List.range' 1 count).foldl
      (fun best s => if ltInf (metricAt pm s) (metricAt pm best) then s else best) 0 = best at ih ⊢
    obtain ⟨hle, hmin, hfirst⟩ := ih
    rw [show 1 + 1 * count = count + 1 by omega]
    split
    · next hlt =>
      refine ⟨Nat.le_refl _, fun s hs => ?_, fun s hs => ltInf_of_lt_of_le hlt (hmin s (by omega))⟩
      rcases Nat.lt_or_ge s (count + 1) with h | h
      · exact leInf_of_ltInf (ltInf_of_lt_of_le hlt (hmin s (by omega)))
      · rw [show s = count + 1 by omega]; exact leInf_refl _
    · next hlt =>
      refine ⟨by omega, fun s hs => ?_, hfirst⟩
      rcases Nat.lt_or_ge s (count + 1) with h | h
      · exact hmin s (by omega)
      · rw [show s = count + 1 by omega]; simpa [ltInf] using hlt

/-- The final scan selects the lowest state among those whose metric is smallest (R140, R141). -/
theorem bestState_firstMinimum (k : Nat) (pm : List Metric) :
    bestState k pm < numStates k ∧
    (∀ s < numStates k, leInf (metricAt pm (bestState k pm)) (metricAt pm s) = true) ∧
    ∀ s < bestState k pm, ltInf (metricAt pm (bestState k pm)) (metricAt pm s) = true := by
  have hS := numStates_pos k
  obtain ⟨hle, hmin, hfirst⟩ := scan_firstMinimum pm (numStates k - 1)
  exact ⟨by unfold bestState; omega, fun s hs => hmin s (by omega), hfirst⟩

/-! ### The walk (R141) -/

@[simp] theorem walkBack_length (k : Nat) (columns : List (List Nat)) (cur : Nat) :
    (walkBack k columns cur).1.length = columns.length := by
  induction columns generalizing cur with
  | nil => rfl
  | cons column earlier ih => simp [walkBack, ih]

/-- A decode call's result has one bit per column (R144). -/
@[simp] theorem tracebackBits_length (k : Nat) (pm : List Metric) (tr : List (List Nat)) :
    (tracebackBits k pm tr).length = tr.length := by
  simp [tracebackBits]

@[simp] theorem tracebackBits_nil (k : Nat) (pm : List Metric) : tracebackBits k pm [] = [] := rfl

/-- The walk from the last column, which gives the last bit, and then through the earlier ones. -/
theorem walkBack_concat (k : Nat) (tr : List (List Nat)) (column : List Nat) (cur : Nat) :
    (walkBack k (tr ++ [column]).reverse cur).1.reverse =
      (walkBack k tr.reverse (predecessorAt column cur)).1.reverse ++ [topBit k cur] := by
  simp [walkBack]

theorem walkBack_last_concat (k : Nat) (tr : List (List Nat)) (column : List Nat) (cur : Nat) :
    (walkBack k (tr ++ [column]).reverse cur).2 = (walkBack k tr.reverse (predecessorAt column cur)).2 := by
  simp [walkBack]

end Sys2Proof.Machine
end

