-- ==== Sys2Proof/Laws/Commands.lean ====
section
/-! SUPPORT. What the pseudocode of each command can do, said once (R95 to R142): when it succeeds and with which state, and what no
command writes. -/

namespace Sys2Proof.Machine

/-- The state after a trellis step on a complete group, with the buffer emptied (R123, R124). -/
def groupTaken (grp : List Bit) (s : State) : State :=
  { s with
    pm := (stepColumn s.k s.output s.pm grp).map Prod.fst
    tr := s.tr ++ [(stepColumn s.k s.output s.pm grp).map Prod.snd]
    gb := [] }

theorem beginConfig_ok {k : Nat} {s t : State} :
    beginConfig k s = .ok t ↔ 2 ≤ k ∧ k ≤ s.config.kmax ∧ t = { s with k := k, n := 0, mode := .configuring } := by
  unfold beginConfig
  split
  · next h => simp; omega
  · next h =>
    simp only [Except.ok.injEq]
    exact ⟨fun e => ⟨by omega, by omega, e.symm⟩, fun e => e.2.2.symm⟩

theorem addPoly_ok {p : Nat} {s t : State} :
    addPoly p s = .ok t ↔ p ≠ 0 ∧ p < 2 ^ s.k ∧ s.config.nmax ≠ .atMost s.n ∧ t = s.appendPoly p := by
  unfold addPoly
  split_ifs with h0 hw hc
  · simp [h0]
  · simp; omega
  · simp [isFull_iff.1 hc]
  · have := isFull_false_iff.1 (by simpa using hc)
    simp only [Except.ok.injEq]
    exact ⟨fun e => ⟨h0, by omega, this, e.symm⟩, fun e => e.2.2.2.symm⟩

theorem commitConfig_ok {s t : State} :
    commitConfig s = .ok t ↔ s.n ≠ 0 ∧ t = { s with
      out := outputTable s.k s.polys, es := 0, gb := [], pm := initialMetrics s.k, tr := [], mode := .ready } := by
  unfold commitConfig
  split
  · next h => simp [h]
  · next h =>
    simp only [Except.ok.injEq]
    exact ⟨fun e => ⟨h, e.symm⟩, fun e => e.2.symm⟩

theorem consumeGroup_ok {grp : List Bit} {s t : State} :
    consumeGroup grp s = .ok t ↔ s.config.tmax ≠ .atMost s.tr.length ∧ t = groupTaken grp s := by
  rcases consumeGroup_cases (grp := grp) (s := s) with ⟨hc, h⟩ | ⟨hc, h⟩ <;> rw [h]
  · simp [hc]
  · simp only [Except.ok.injEq]
    exact ⟨fun e => ⟨hc, e.symm⟩, fun e => e.2.symm⟩

theorem consumeGroup_error {grp : List Bit} {s : State} {c : Cause} :
    consumeGroup grp s = .error c ↔ s.config.tmax = .atMost s.tr.length ∧ c = .capacity := by
  rcases consumeGroup_cases (grp := grp) (s := s) with ⟨hc, h⟩ | ⟨hc, h⟩ <;> rw [h]
  · simp [hc, eq_comm]
  · simp [hc]

theorem receiveBit_ok {b : Bit} {s t : State} :
    receiveBit b s = .ok t ↔
      (s.gb.length + 1 < s.n ∧ t = { s with gb := s.gb ++ [b] }) ∨
      (s.n ≤ s.gb.length + 1 ∧ s.config.tmax ≠ .atMost s.tr.length ∧ t = groupTaken (s.gb ++ [b]) s) := by
  rcases receiveBit_cases (b := b) (s := s) with ⟨hl, h⟩ | ⟨hl, h⟩ <;> rw [h]
  · simp only [Except.ok.injEq]
    exact ⟨fun e => .inl ⟨hl, e.symm⟩, fun e => e.elim (fun e => e.2.symm) (fun e => by omega)⟩
  · rw [consumeGroup_ok]
    exact ⟨fun e => .inr ⟨hl, e⟩, fun e => e.elim (fun e => by omega) (fun e => e.2)⟩

theorem receiveBit_error {b : Bit} {s : State} {c : Cause} :
    receiveBit b s = .error c ↔
      s.n ≤ s.gb.length + 1 ∧ s.config.tmax = .atMost s.tr.length ∧ c = .capacity := by
  rcases receiveBit_cases (b := b) (s := s) with ⟨hl, h⟩ | ⟨hl, h⟩ <;> rw [h]
  · simp; omega
  · rw [consumeGroup_error]
    exact ⟨fun e => ⟨hl, e⟩, fun e => e.2⟩

theorem flushGroup_ok {s t : State} :
    flushGroup s = .ok t ↔
      (s.gb = [] ∧ t = s) ∨
      (s.gb ≠ [] ∧ s.config.tmax ≠ .atMost s.tr.length ∧ t = groupTaken (padGroup s.n s.gb) s) := by
  rcases flushGroup_cases (s := s) with ⟨hg, h⟩ | ⟨hg, hc, h⟩ | ⟨hg, hc, h⟩ <;> rw [h]
  · simp [hg, eq_comm]
  · simp [hg, hc]
  · simp only [Except.ok.injEq]
    exact ⟨fun e => .inr ⟨hg, hc, e.symm⟩, fun e => e.elim (fun e => absurd e.1 hg) (fun e => e.2.2.symm)⟩

theorem flushGroup_error {s : State} {c : Cause} :
    flushGroup s = .error c ↔ s.gb ≠ [] ∧ s.config.tmax = .atMost s.tr.length ∧ c = .capacity := by
  rcases flushGroup_cases (s := s) with ⟨hg, h⟩ | ⟨hg, hc, h⟩ | ⟨hg, hc, h⟩ <;> rw [h]
  · simp [hg]
  · simp [hg, hc, eq_comm]
  · simp [hg, hc]

theorem endDecode_ok {s t : State} :
    endDecode s = .ok t ↔ ∃ u, flushGroup s = .ok u ∧ t = (traceback u).startDecoder := by
  unfold endDecode
  cases flushGroup s with
  | ok u => simp [eq_comm]
  | error c => simp

theorem endDecode_error {s : State} {c : Cause} : endDecode s = .error c ↔ flushGroup s = .error c := by
  unfold endDecode
  cases flushGroup s with
  | ok u => simp
  | error c => simp

/-- A command's own checks raise its own causes only (R170, R178). -/
theorem commandBody_error {i : Instr} {s : State} {c : Cause} (h : commandBody i s = .error c) :
    match i with
    | .cfgBegin k => c = .badConstraint ∧ (k < 2 ∨ s.config.kmax < k)
    | .cfgPoly p => (c = .nonpositivePoly ∧ p = 0) ∨ (c = .polyTooWide ∧ p ≠ 0 ∧ 2 ^ s.k ≤ p) ∨
        (c = .capacity ∧ p ≠ 0 ∧ p < 2 ^ s.k ∧ s.config.nmax = .atMost s.n)
    | .cfgCommit => c = .emptyPolySet ∧ s.n = 0
    | .decBit _ => c = .capacity ∧ s.n ≤ s.gb.length + 1 ∧ s.config.tmax = .atMost s.tr.length
    | .decFlush => c = .capacity ∧ s.gb ≠ [] ∧ s.config.tmax = .atMost s.tr.length
    | .decTrace => c = .capacity ∧ s.gb ≠ [] ∧ s.config.tmax = .atMost s.tr.length
    | _ => False := by
  cases i with
  | cfgBegin k =>
    simp only [commandBody, beginConfig] at h
    split at h
    · next hk => exact ⟨by simpa using h.symm, hk⟩
    · simp at h
  | cfgPoly p =>
    simp only [commandBody, addPoly] at h
    split_ifs at h with h0 hw hc
    · exact .inl ⟨by simpa using h.symm, h0⟩
    · exact .inr (.inl ⟨by simpa using h.symm, h0, hw⟩)
    · exact .inr (.inr ⟨by simpa using h.symm, h0, by omega, isFull_iff.1 hc⟩)
  | cfgCommit =>
    simp only [commandBody, commitConfig] at h
    split at h
    · next hn => exact ⟨by simpa using h.symm, hn⟩
    · simp at h
  | decBit b => obtain ⟨hl, hc, hcap⟩ := receiveBit_error.1 h; exact ⟨hcap, hl, hc⟩
  | decFlush => obtain ⟨hg, hc, hcap⟩ := flushGroup_error.1 h; exact ⟨hcap, hg, hc⟩
  | decTrace => obtain ⟨hg, hc, hcap⟩ := flushGroup_error.1 (endDecode_error.1 h); exact ⟨hcap, hg, hc⟩
  | cfgNpar => simp [commandBody, readParityCount] at h
  | encStart => simp [commandBody] at h
  | encBit b => simp [commandBody] at h
  | decStart => simp [commandBody] at h

/-- Everything a command's pseudocode can leave, command by command. -/
theorem commandBody_ok {i : Instr} {s t : State} (h : commandBody i s = .ok t) :
    match i with
    | .cfgBegin k => 2 ≤ k ∧ k ≤ s.config.kmax ∧ t = { s with k := k, n := 0, mode := .configuring }
    | .cfgPoly p => p ≠ 0 ∧ p < 2 ^ s.k ∧ s.config.nmax ≠ .atMost s.n ∧ t = s.appendPoly p
    | .cfgCommit => s.n ≠ 0 ∧ t = { s with
        out := outputTable s.k s.polys, es := 0, gb := [], pm := initialMetrics s.k, tr := [], mode := .ready }
    | .cfgNpar => t = { s with res := s.n }
    | .encStart => t = s.startEncoder
    | .encBit b => t = encodeBit b s
    | .decStart => t = s.startDecoder
    | .decBit b =>
        (s.gb.length + 1 < s.n ∧ t = { s with gb := s.gb ++ [b] }) ∨
        (s.n ≤ s.gb.length + 1 ∧ s.config.tmax ≠ .atMost s.tr.length ∧ t = groupTaken (s.gb ++ [b]) s)
    | .decFlush =>
        (s.gb = [] ∧ t = s) ∨
        (s.gb ≠ [] ∧ s.config.tmax ≠ .atMost s.tr.length ∧ t = groupTaken (padGroup s.n s.gb) s)
    | .decTrace =>
        (s.gb = [] ∧ t = (traceback s).startDecoder) ∨
        (s.gb ≠ [] ∧ s.config.tmax ≠ .atMost s.tr.length ∧
          t = (traceback (groupTaken (padGroup s.n s.gb) s)).startDecoder) := by
  cases i with
  | cfgBegin k => exact beginConfig_ok.1 h
  | cfgPoly p => exact addPoly_ok.1 h
  | cfgCommit => exact commitConfig_ok.1 h
  | cfgNpar => simpa [commandBody, readParityCount] using h.symm
  | encStart => simpa [commandBody] using h.symm
  | encBit b => simpa [commandBody] using h.symm
  | decStart => simpa [commandBody] using h.symm
  | decBit b => exact receiveBit_ok.1 h
  | decFlush => exact flushGroup_ok.1 h
  | decTrace =>
    obtain ⟨u, hu, rfl⟩ := endDecode_ok.1 h
    rcases flushGroup_ok.1 hu with ⟨hg, rfl⟩ | ⟨hg, hc, rfl⟩
    · exact .inl ⟨hg, rfl⟩
    · exact .inr ⟨hg, hc, rfl⟩

/-- No command touches the instance's parameters or the host's further moves. -/
theorem commandBody_keeps {i : Instr} {s t : State} (h : commandBody i s = .ok t) :
    t.config = s.config ∧ t.pending = s.pending := by
  have := commandBody_ok h
  cases i with
  | cfgBegin k => obtain ⟨-, -, rfl⟩ := this; exact ⟨rfl, rfl⟩
  | cfgPoly p => obtain ⟨-, -, -, rfl⟩ := this; exact ⟨rfl, rfl⟩
  | cfgCommit => obtain ⟨-, rfl⟩ := this; exact ⟨rfl, rfl⟩
  | cfgNpar => rw [show t = _ from this]; exact ⟨rfl, rfl⟩
  | encStart => rw [show t = _ from this]; exact ⟨rfl, rfl⟩
  | encBit b => rw [show t = _ from this]; exact ⟨rfl, rfl⟩
  | decStart => rw [show t = _ from this]; exact ⟨rfl, rfl⟩
  | decBit b => rcases this with ⟨-, rfl⟩ | ⟨-, -, rfl⟩ <;> exact ⟨rfl, rfl⟩
  | decFlush => rcases this with ⟨-, rfl⟩ | ⟨-, -, rfl⟩ <;> exact ⟨rfl, rfl⟩
  | decTrace => rcases this with ⟨-, rfl⟩ | ⟨-, -, rfl⟩ <;> exact ⟨rfl, rfl⟩

theorem exec_keeps {i : Instr} {s t : State} (h : exec i s = .next t) :
    t.config = s.config ∧ t.pending = s.pending := by
  rcases exec_cases h with ⟨-, rfl⟩ | ⟨-, -, rfl⟩ | ⟨-, -, hb⟩ | ⟨-, -, c, -, rfl⟩
  · exact ⟨rfl, rfl⟩
  · exact ⟨rfl, rfl⟩
  · exact commandBody_keeps hb
  · exact ⟨rfl, rfl⟩

/-- A move of the host leaves the further ones as they are. -/
theorem runMove_pending {move : HostMove} {s t : State} (h : runMove move s = .next t) : t.pending = s.pending := by
  cases move with
  | read => simp only [runMove, Host.Outcome.next.injEq] at h; rw [h]
  | reset => simp only [runMove, Host.Outcome.next.injEq] at h; rw [← h]; rfl
  | command w =>
    simp only [runMove, runWord] at h
    split at h
    · exact (exec_keeps h).2
    · rcases runIllegal_cases h with ⟨-, rfl⟩ | ⟨-, rfl⟩ <;> rfl

end Sys2Proof.Machine
end

