-- ==== Sys2Proof/Laws/Decode.lean ====
section
/-! SUPPORT. The fields of a command word as numbers, and a word and its fields make each other up (R71). -/

namespace Sys2Proof

/-- `op` as a number (R71). -/
theorem opField_toNat (w : Word) : (opField w).toNat = w.toNat / 2 ^ 24 := by
  have := w.isLt
  simp only [opField, BitVec.extractLsb'_toNat, Nat.shiftRight_eq_div_pow]
  omega

/-- `arg` as a number (R71). -/
theorem argField_toNat (w : Word) : (argField w).toNat = w.toNat % 2 ^ 24 := by
  simp [argField]

/-- A word as a number, from its fields (R71). -/
theorem mkWord_toNat (op : OpCode) (arg : Arg) : (mkWord op arg).toNat = op.toNat * 2 ^ 24 + arg.toNat := by
  have := arg.isLt
  rw [mkWord, BitVec.toNat_append, ← Nat.shiftLeft_add_eq_or_of_lt this, Nat.shiftLeft_eq]

@[simp] theorem opField_mkWord (op : OpCode) (arg : Arg) : opField (mkWord op arg) = op := by
  have := arg.isLt
  apply BitVec.eq_of_toNat_eq
  rw [opField_toNat, mkWord_toNat]
  omega

@[simp] theorem argField_mkWord (op : OpCode) (arg : Arg) : argField (mkWord op arg) = arg := by
  have := arg.isLt
  apply BitVec.eq_of_toNat_eq
  rw [argField_toNat, mkWord_toNat]
  omega

/-- A word is made up of its fields (R71). -/
theorem mkWord_fields (w : Word) : mkWord (opField w) (argField w) = w := by
  apply BitVec.eq_of_toNat_eq
  rw [mkWord_toNat, opField_toNat, argField_toNat]
  omega

end Sys2Proof
end

