-- ==== Sys2Proof/Laws/Invariant.lean ====
section
/-! SUPPORT. The shapes and bounds of Safety.lean under each shared operation: which ones keep them and why. -/

namespace Sys2Proof

@[simp] theorem Bound.admits_unbounded (count : Nat) : Bound.unbounded.admits count = true := rfl

@[simp] theorem Bound.admits_atMost (m count : Nat) : (Bound.atMost m).admits count = decide (count ≤ m) := rfl

/-- A count that is not at its bound can grow by one (R174). -/
theorem Bound.admits_succ {b : Bound} {count : Nat} (h : b.Admits count) (hne : b ≠ .atMost count) :
    b.Admits (count + 1) := by
  cases b with
  | unbounded => rfl
  | atMost m =>
    have hm : m ≠ count := fun e => hne (e ▸ rfl)
    have hc : count ≤ m := of_decide_eq_true h
    exact decide_eq_true (by omega : count + 1 ≤ m)

theorem Bound.admits_zero (b : Bound) : b.Admits 0 := by cases b <;> simp [Bound.Admits]

namespace Machine

@[simp] theorem groupTaken_k (grp : List Bit) (s : State) : (groupTaken grp s).k = s.k := rfl
@[simp] theorem groupTaken_n (grp : List Bit) (s : State) : (groupTaken grp s).n = s.n := rfl
@[simp] theorem groupTaken_gb (grp : List Bit) (s : State) : (groupTaken grp s).gb = [] := rfl
@[simp] theorem groupTaken_mode (grp : List Bit) (s : State) : (groupTaken grp s).mode = s.mode := rfl
@[simp] theorem groupTaken_config (grp : List Bit) (s : State) : (groupTaken grp s).config = s.config := rfl
@[simp] theorem groupTaken_pm (grp : List Bit) (s : State) :
    (groupTaken grp s).pm = (stepColumn s.k s.output s.pm grp).map Prod.fst := rfl
@[simp] theorem groupTaken_tr (grp : List Bit) (s : State) :
    (groupTaken grp s).tr = s.tr ++ [(stepColumn s.k s.output s.pm grp).map Prod.snd] := rfl

/-! ### Which states a number of steps reaches (R130) -/

theorem reachedIn_zero_state (k n : Nat) : ReachedIn k n 0 := Nat.zero_mod _

/-- Before the first step only state 0 is reached (R130). -/
theorem reachedIn_start {k t : Nat} (h : t < numStates k) : ReachedIn k 0 t ↔ t = 0 := by
  show t % numStates k = 0 ↔ t = 0
  rw [Nat.mod_eq_of_lt h]

/-- A state is reached by one step more exactly when one of its predecessors is reached (R121, R130). -/
theorem reachedIn_succ {k n t : Nat} (hk : 2 ≤ k) :
    ReachedIn k (n + 1) t ↔ ReachedIn k n (pred0 k t) ∨ ReachedIn k n (pred1 k t) := by
  rw [pred0_eq, pred1_eq]
  simp only [ReachedIn]
  rcases Nat.lt_or_ge n (k - 1) with h | h
  · rw [show k - 1 - n = (k - 2 - n) + 1 by omega, pow_succ', show k - 1 - (n + 1) = k - 2 - n by omega]
    have hd : 2 ^ (k - 2 - n) ∣ 2 ^ (k - 2) := Nat.pow_dvd_pow _ (by omega)
    rw [Nat.mul_mod_mul_left, Nat.mod_mod_of_dvd _ hd]
    constructor
    · intro h0; exact .inl (by omega)
    · rintro (h0 | h1)
      · omega
      · have hodd : (2 * (t % 2 ^ (k - 2)) + 1) % 2 = 0 := by
          have := congrArg (· % 2) h1
          simp only [Nat.zero_mod] at this
          rwa [Nat.mod_mul_right_mod] at this
        omega
  · simp [show k - 1 - n = 0 by omega, show k - 1 - (n + 1) = 0 by omega, Nat.mod_one]

/-! ### Which operations keep the invariant -/

/-- Fault entry from any mode but `FAILED` (R176). -/
theorem invariant_raise {s : State} (h : Invariant s) (c : Cause) (w : Word) : Invariant (raise c w s) where
  config_ok := h.config_ok
  failed_iff := by simpa using Cause.code_ne_zero c
  errcmd_zero h0 := absurd h0 (Cause.code_ne_zero c)
  quiet hm := by simp at hm
  res_ready hm := by simp at hm
  registers_ok hm := by simp at hm
  ready_ok hm := by simp at hm

/-- The host's further moves do not matter. -/
theorem invariant_pending {s : State} (h : Invariant s) (moves : List HostMove) : Invariant { s with pending := moves } where
  config_ok := h.config_ok
  failed_iff := h.failed_iff
  errcmd_zero := h.errcmd_zero
  quiet := h.quiet
  res_ready := h.res_ready
  registers_ok hm := by have r := h.registers_ok hm; exact ⟨r.1, r.2, r.3, r.4, r.5⟩
  ready_ok hm := by
    have r := h.ready_ok hm
    exact ⟨r.1, r.2, r.3, r.4, r.5, r.6, r.7, r.8, r.9, r.10, r.11, r.12⟩

/-- Fresh contexts over a sound output table (R98, R195). -/
theorem readyOk_fresh {s : State} (hn : 1 ≤ s.n) (hpm : s.pm = initialMetrics s.k) (htr : s.tr = []) (hgb : s.gb = [])
    (hout : s.out.length = 2 ^ s.k) (hwidth : ∀ i < 2 ^ s.k, (s.out.getD i []).length = s.n)
    (hentry : ∀ i < 2 ^ s.k, ∀ j < s.n,
      (s.out.getD i []).getD j false = parity (revK s.k (s.g.getD j 0) &&& i))
    (hes : s.es < 2 ^ (s.k - 1)) : ReadyOk s where
  n_pos := hn
  out_length := hout
  out_width := hwidth
  out_entry := hentry
  es_lt := hes
  gb_lt := by rw [hgb]; exact hn
  tr_le := by rw [htr]; exact Bound.admits_zero _
  tr_column := by simp [htr]
  pm_length := by rw [hpm, initialMetrics_length]; rfl
  pm_finite t ht := by
    rw [hpm, metricAt_initial ht, htr, List.length_nil, reachedIn_start ht]
    split <;> simp [*]
  pm_le t ht m hm := by
    rw [hpm, metricAt_initial ht] at hm
    split at hm
    · simp only [Metric.fin.injEq] at hm; omega
    · simp at hm
  tr_finite := by simp [htr]

/-- A trellis step on a complete group (R126). -/
theorem readyOk_groupTaken {s : State} (hk : 2 ≤ s.k) (h : ReadyOk s) (hc : s.config.tmax ≠ .atMost s.tr.length)
    (grp : List Bit) : ReadyOk (groupTaken grp s) := by
  have hsel : ∀ t, (selectPredecessor s.k s.output s.pm grp t).2 < numStates s.k := by
    intro t
    rcases (selectPredecessor_spec s.k s.output s.pm grp t).1 with hp | hp <;> rw [hp]
    · exact pred0_lt hk
    · exact pred1_lt hk
  have hfin : ∀ t, (selectPredecessor s.k s.output s.pm grp t).1 ≠ .inf ↔ ReachedIn s.k (s.tr.length + 1) t := by
    intro t
    rw [reachedIn_succ hk, ← h.pm_finite _ (pred0_lt hk), ← h.pm_finite _ (pred1_lt hk), Ne, selectPredecessor_eq_inf]
    tauto
  have hlen : (groupTaken grp s).tr.length = s.tr.length + 1 := by simp
  exact {
    n_pos := h.n_pos
    out_length := h.out_length
    out_width := h.out_width
    out_entry := h.out_entry
    es_lt := h.es_lt
    gb_lt := h.n_pos
    tr_le := by rw [hlen]; exact Bound.admits_succ h.tr_le hc
    tr_column := by
      intro column hcol
      simp only [groupTaken_tr, List.mem_append, List.mem_singleton] at hcol
      rcases hcol with hcol | rfl
      · exact h.tr_column column hcol
      · refine ⟨by simp [numStates], fun t ht => ?_⟩
        rw [predecessorAt_stepColumn (by exact ht)]
        exact (selectPredecessor_spec _ _ _ _ _).1
    pm_length := by simp [numStates]
    pm_finite := by
      intro t ht
      rw [hlen, groupTaken_pm, metricAt_stepColumn (by exact ht)]
      exact hfin t
    pm_le := by
      intro t ht m hm
      rw [groupTaken_pm, metricAt_stepColumn (by exact ht)] at hm
      have hcd := (selectPredecessor_spec s.k s.output s.pm grp t).2.1
      rw [hm, candidate] at hcd
      rw [hlen]
      cases hp : metricAt s.pm (selectPredecessor s.k s.output s.pm grp t).2 with
      | inf => simp [hp] at hcd
      | fin a =>
        rw [hp] at hcd
        simp only [addInf_fin, Metric.fin.injEq] at hcd
        have ha := h.pm_le _ (hsel t) a hp
        have hd_le : hd grp (s.output (selectPredecessor s.k s.output s.pm grp t).2 (topBit s.k t)) ≤ s.n :=
          le_trans (hd_le_right _ _) (le_of_eq (h.out_width _ (combinedIndex_lt _ (by omega) (hsel t))))
        rw [groupTaken_n, Nat.add_mul]
        omega
    tr_finite := by
      intro c hcl t ht hre
      rw [hlen] at hcl
      simp only [groupTaken_k, groupTaken_tr] at ht hre ⊢
      rcases Nat.lt_or_ge c s.tr.length with hlt | hge
      · rw [List.getD_eq_getElem?_getD, List.getElem?_append_left hlt, ← List.getD_eq_getElem?_getD]
        exact h.tr_finite c hlt t ht hre
      · have hce : c = s.tr.length := by omega
        subst hce
        simp only [List.getD_eq_getElem?_getD, List.getElem?_concat_length, Option.getD_some]
        rw [predecessorAt_stepColumn (by exact ht)]
        exact (h.pm_finite _ (hsel t)).1 (selectPredecessor_finite ((hfin t).2 hre)) }

end Machine

end Sys2Proof
end

