-- ==== Sys2Proof/Laws/PerInstr.lean ====
section
/-! SUPPORT. One statement about every command as syntax, one lemma per constructor: its word matches its row of the opcode map
(R73). -/

namespace Sys2Proof.Laws.OpcodeRow

/-- The word of a well-formed command matches the row of the opcode map that bears its mnemonic (R73). -/
def Statement (i : Instr) : Prop :=
  i.wellFormed = true → ∃ r ∈ opTable, r.mnemonic = i.mnemonic ∧ r.spells (encode i) = true

/-- The `op` part of a word, with the other bits cleared (R71). -/
theorem mkWord_and_opMask (op : OpCode) (arg : Arg) : mkWord op arg &&& 0xFF000000#32 = mkWord op 0#24 := by
  have hm : (0xFF000000#32 : BitVec 32) = (0xFF#8 : BitVec 8) ++ (0#24 : BitVec 24) := by decide
  rw [mkWord, mkWord, hm]
  ext i hi
  rw [BitVec.getElem_and, BitVec.getElem_append, BitVec.getElem_append, BitVec.getElem_append]
  split
  · simp
  · have hone : ∀ j (h : j < 8), (0xFF#8 : BitVec 8)[j] = true := by decide
    rw [hone, Bool.and_true]

theorem cfgBegin (k : Nat) : Statement (.cfgBegin k) := fun _ =>
  ⟨opTable[0], List.getElem_mem _, rfl, by
    show decide (mkWord 0x01#8 _ &&& 0xFF000000#32 = 0x01000000#32) = true
    rw [mkWord_and_opMask]; rfl⟩

theorem cfgPoly (p : Nat) : Statement (.cfgPoly p) := fun _ =>
  ⟨opTable[1], List.getElem_mem _, rfl, by
    show decide (mkWord 0x02#8 _ &&& 0xFF000000#32 = 0x02000000#32) = true
    rw [mkWord_and_opMask]; rfl⟩

theorem cfgCommit : Statement .cfgCommit := fun _ => ⟨opTable[2], List.getElem_mem _, rfl, rfl⟩

theorem cfgNpar : Statement .cfgNpar := fun _ => ⟨opTable[3], List.getElem_mem _, rfl, rfl⟩

theorem encStart : Statement .encStart := fun _ => ⟨opTable[4], List.getElem_mem _, rfl, rfl⟩

theorem encBit (b : Bit) : Statement (.encBit b) := fun _ =>
  ⟨opTable[5], List.getElem_mem _, rfl, by cases b <;> rfl⟩

theorem decStart : Statement .decStart := fun _ => ⟨opTable[6], List.getElem_mem _, rfl, rfl⟩

theorem decBit (b : Bit) : Statement (.decBit b) := fun _ =>
  ⟨opTable[7], List.getElem_mem _, rfl, by cases b <;> rfl⟩

theorem decFlush : Statement .decFlush := fun _ => ⟨opTable[8], List.getElem_mem _, rfl, rfl⟩

theorem decTrace : Statement .decTrace := fun _ => ⟨opTable[9], List.getElem_mem _, rfl, rfl⟩

end Sys2Proof.Laws.OpcodeRow
end

