-- ==== Sys2Proof/Laws/Run.lean ====
section
/-! SUPPORT. Runs: no command looks at the host's further moves, so a run splits at any point, and the run of a sequence of commands
is its commands one after another (R61, R203). -/

namespace Sys2Proof.Machine

/-- A command's pseudocode does not look at the host's further moves. -/
theorem commandBody_setPending (i : Instr) (s : State) (moves : List HostMove) :
    commandBody i { s with pending := moves } =
      match commandBody i s with
      | .ok t => .ok { t with pending := moves }
      | .error c => .error c := by
  cases i with
  | cfgBegin k => simp only [commandBody, beginConfig]; split <;> rfl
  | cfgPoly p => simp only [commandBody, addPoly]; split_ifs <;> rfl
  | cfgCommit => simp only [commandBody, commitConfig]; split <;> rfl
  | cfgNpar => rfl
  | encStart => rfl
  | encBit b => rfl
  | decStart => rfl
  | decBit b =>
    simp only [commandBody, receiveBit, consumeGroup, trellisStep]
    split_ifs <;> rfl
  | decFlush =>
    simp only [commandBody, flushGroup, consumeGroup, trellisStep]
    split_ifs <;> rfl
  | decTrace =>
    simp only [commandBody, endDecode, flushGroup, consumeGroup, trellisStep]
    split_ifs <;> rfl

/-- A command does not look at the host's further moves. -/
theorem exec_setPending {i : Instr} {s t : State} (h : exec i s = .next t) (moves : List HostMove) :
    exec i { s with pending := moves } = .next { t with pending := moves } := by
  rw [exec_eq_runCommand] at h ⊢
  unfold runCommand at h ⊢
  rw [commandBody_setPending]
  split_ifs at h ⊢ with hf hm
  · simp only [Host.Outcome.next.injEq] at h; rw [h]
  · simp only [Host.Outcome.next.injEq] at h; rw [← h]; rfl
  · cases hb : commandBody i s with
    | ok u => simp only [hb, Host.Outcome.next.injEq] at h; rw [h]
    | error c => simp only [hb, Host.Outcome.next.injEq] at h; rw [← h]; rfl

/-- A move of the host does not look at the further ones. -/
theorem runMove_setPending {move : HostMove} {s t : State} (h : runMove move s = .next t) (moves : List HostMove) :
    runMove move { s with pending := moves } = .next { t with pending := moves } := by
  cases move with
  | read => simp only [runMove, Host.Outcome.next.injEq] at h ⊢; rw [h]
  | reset => simp only [runMove, Host.Outcome.next.injEq] at h ⊢; rw [← h]; rfl
  | command w =>
    simp only [runMove, runWord] at h ⊢
    split at h
    · exact exec_setPending h moves
    · unfold runIllegal at h ⊢
      split_ifs at h ⊢
      · simp only [Host.Outcome.next.injEq] at h; rw [h]
      · simp only [Host.Outcome.next.injEq] at h; rw [← h]; rfl

/-- A run is its steps, in two parts one after another. -/
theorem runSteps_add {a : Nat} {s t : State} (h : runSteps a s = .next t) (b : Nat) :
    runSteps (a + b) s = runSteps b t := by
  induction a generalizing s with
  | zero => simp only [runSteps, Host.Outcome.next.injEq] at h; rw [h, Nat.zero_add]
  | succ a ih =>
    rw [show a + 1 + b = (a + b) + 1 by omega]
    obtain ⟨u, hu⟩ := step_isNext s
    simp only [runSteps, hu] at h ⊢
    exact ih h

/-- Every run answers a next state: the block never stops (R203). -/
theorem runSteps_isNext (count : Nat) (s : State) : ∃ t, runSteps count s = .next t := by
  induction count generalizing s with
  | zero => exact ⟨s, rfl⟩
  | succ count ih =>
    obtain ⟨u, hu⟩ := step_isNext s
    obtain ⟨t, ht⟩ := ih u
    exact ⟨t, by simp only [runSteps, hu]; exact ht⟩

/-- The run of no commands. -/
theorem runCommands_nil {s : State} (h : s.pending = []) : runCommands [] s = .next s := by
  have hi : s.issue [] = s := by rw [State.issue, List.append_nil]
  simp only [runCommands, runMoves, commandMoves, List.map_nil, h, List.length_nil, Nat.add_zero, runSteps, hi]

/-- The run of a sequence of commands begins with its first one, when its word decodes to it. -/
theorem runCommands_cons {s t : State} {i : Instr} (rest : List Instr) (hp : s.pending = [])
    (hd : decode (encode i) = .command i) (h : exec i s = .next t) :
    runCommands (i :: rest) s = runCommands rest t := by
  have ht : t.pending = [] := (exec_keeps h).2.trans hp
  have hstep : step (s.issue (commandMoves (i :: rest))) = .next { t with pending := commandMoves rest } := by
    have hq : (s.issue (commandMoves (i :: rest))).pending = .command (encode i) :: commandMoves rest := by
      simp [hp, commandMoves]
    rw [step_move hq]
    simp only [runMove, runWord, hd]
    exact exec_setPending h _
  have hl : s.pending.length + (commandMoves (i :: rest)).length =
      (t.pending.length + (commandMoves rest).length) + 1 := by
    simp [hp, ht, commandMoves]
  rw [runCommands, runMoves, hl]
  simp only [runSteps, hstep]
  rw [runCommands, runMoves, State.issue, ht, List.nil_append]

end Sys2Proof.Machine
end

