-- ==== Sys2Proof/Machine/Assembler.lean ====
section
/-! DEFINITION. The assembler's text form of commands (R80) and of the four pseudo-instructions (R81 to R84): one line of text
to command words. The details of the text that R80 leaves open are in assumption log entry 16. -/

namespace Sys2Proof.Machine

/-- The pieces of a line. -/
inductive Token where
  | word (text : List Char)
  | comma
  | openBrace
  | closeBrace
  | quote
deriving DecidableEq, Repr

/-- The marks of the pseudo-instructions' operands (R81, R83): comma, braces, quotation mark, by their character codes. -/
def punctuation (c : Char) : Option Token :=
  match c.toNat with
  | 0x2C => some .comma
  | 0x7B => some .openBrace
  | 0x7D => some .closeBrace
  | 0x22 => some .quote
  | _ => none

/-- A word, kept last character first while it is read, in front of the tokens after it. -/
def closeWord (readBackwards : List Char) (later : List Token) : List Token :=
  if readBackwards.isEmpty then later else .word readBackwards.reverse :: later

/-- The tokens of a line: blanks separate them, and "a `#` starts a comment that runs to the end of the line" (R80). -/
def tokenize : List Char → List Char → List Token
  | [], acc => closeWord acc []
  | c :: cs, acc =>
    if c = '#' then closeWord acc []
    else if c = ' ' ∨ c = '\t' ∨ c = '\r' then closeWord acc (tokenize cs [])
    else
      match punctuation c with
      | some t => closeWord acc (t :: tokenize cs [])
      | none => tokenize cs (c :: acc)

/-- The value of a digit, or `none` for any other character. -/
def digitValue (c : Char) : Option Nat :=
  if '0' ≤ c ∧ c ≤ '9' then some (c.toNat - 48)
  else if 'a' ≤ c ∧ c ≤ 'f' then some (c.toNat - 87)
  else if 'A' ≤ c ∧ c ≤ 'F' then some (c.toNat - 55)
  else none

/-- The number a sequence of digits spells in a base, most significant digit first, from the value read so far. -/
def digitsFrom (base : Nat) : Nat → List Char → Option Nat
  | value, [] => some value
  | value, c :: cs =>
    match digitValue c with
    | none => none
    | some d => if d < base then digitsFrom base (value * base + d) cs else none

/-- At least one digit. -/
def numeral (base : Nat) (text : List Char) : Option Nat :=
  if text.isEmpty then none else digitsFrom base 0 text

/-- An operand: "in decimal, or in hexadecimal with `0x`, or in binary with the suffix `b`" (R80). -/
def operandValue (text : List Char) : Option Nat :=
  match text with
  | '0' :: 'x' :: digits => numeral 16 digits
  | _ => if text.getLast? = some 'b' then numeral 2 text.dropLast else numeral 10 text

/-- The operand as the `arg` field, when it fits its 24 bits (R71). -/
def operandArg (text : List Char) : Option Arg :=
  match operandValue text with
  | some v => if v < 2 ^ 24 then some (BitVec.ofNat 24 v) else none
  | none => none

/-- A command's word: its row's fixed bits and its operand, which a command without one does not take (R72, R73, R80). An
operand that fits `arg` and is no legal operand gives an illegal word, as in the `ENC.BIT 2` of R178. -/
def commandWord (mnemonic : List Char) (operands : List Token) : Option Word :=
  match opTable.find? fun r => r.mnemonic.toList == mnemonic with
  | none => none
  | some row =>
    match row.form, operands with
    | .none, [] => some row.pattern
    | .bit, [.word text] => (operandArg text).map fun a => row.pattern ||| a.setWidth 32
    | .k, [.word text] => (operandArg text).map fun a => row.pattern ||| a.setWidth 32
    | .p, [.word text] => (operandArg text).map fun a => row.pattern ||| a.setWidth 32
    | _, _ => none

/-- The rest of a polynomial list after its first element, up to the closing brace (R81). -/
def polyListTail : List Token → Option (List Arg)
  | [.closeBrace] => some []
  | .comma :: .word text :: rest =>
    match operandArg text, polyListTail rest with
    | some a, some later => some (a :: later)
    | _, _ => none
  | _ => none

/-- A polynomial list after its opening brace (R81); it may be empty. -/
def polyList : List Token → Option (List Arg)
  | [.closeBrace] => some []
  | .word text :: rest =>
    match operandArg text, polyListTail rest with
    | some a, some later => some (a :: later)
    | _, _ => none
  | _ => none

/-- The bits of a string operand (R83, R84): index 0 on the left (R14). -/
def bitString : List Char → Option (List Bit)
  | [] => some []
  | c :: cs =>
    match digitValue c, bitString cs with
    | some 0, some later => some (false :: later)
    | some 1, some later => some (true :: later)
    | _, _ => none

/-- The quoted string operand of ENCODE and DECODE (R83, R84). -/
def quotedBits : List Token → Option (List Bit)
  | [.quote, .quote] => some []
  | [.quote, .word text, .quote] => bitString text
  | _ => none

/-- The word of a command that takes one bit. -/
def bitWord (op : OpCode) (b : Bit) : Word := mkWord op (BitVec.ofNat 24 b.toNat)

/-- `CONSTRUCT k, {p0, ...}` (R81). -/
def constructWords (operands : List Token) : Option (List Word) :=
  match operands with
  | .word text :: .comma :: .openBrace :: rest =>
    match operandArg text, polyList rest with
    | some k, some polys => some (mkWord 0x01#8 k :: polys.map (mkWord 0x02#8) ++ [mkWord 0x03#8 0#24])
    | _, _ => none
  | _ => none

/-- `ENCODE "..."` (R83). -/
def encodeWords (operands : List Token) : Option (List Word) :=
  (quotedBits operands).map fun bits => mkWord 0x10#8 0#24 :: bits.map (bitWord 0x11#8)

/-- `DECODE "..."` (R84). -/
def decodeWords (operands : List Token) : Option (List Word) :=
  (quotedBits operands).map fun bits => mkWord 0x20#8 0#24 :: bits.map (bitWord 0x21#8) ++ [mkWord 0x23#8 0#24]

/-- The words of one line: none for an empty line, one for a command, its expansion for a pseudo-instruction (R80 to R84).
`none` for a line that is not assembler text. -/
def assembleLine (line : List Char) : Option (List Word) :=
  match tokenize line [] with
  | [] => some []
  | .word name :: operands =>
    if name == "CONSTRUCT".toList then constructWords operands
    else if name == "NUMPARITY".toList then
      if operands.isEmpty then some [mkWord 0x04#8 0#24] else none
    else if name == "ENCODE".toList then encodeWords operands
    else if name == "DECODE".toList then decodeWords operands
    else (commandWord name operands).map fun w => [w]
  | _ => none

/-- The words of a text given line by line, in order: "one command per line" (R80). -/
def assemble : List (List Char) → Option (List Word)
  | [] => some []
  | line :: later =>
    match assembleLine line, assemble later with
    | some ws, some rest => some (ws ++ rest)
    | _, _ => none

end Sys2Proof.Machine
end

