-- ==== Sys2Proof/Tests/Slice0.lean ====
section
/-! SUPPORT. Tests: words written out from the encodings of the spec, an ill-formed term for each check of WellFormed, one or two
steps of each command with the results of 95_test_vectors.md, and for every statement with hypotheses a state and operands that
meet them. -/

namespace Sys2Proof.Tests
open Sys2Proof.Machine

/-! ### Words (30_encoding.md R71 to R75, `op` in bits 31:24, `arg` in bits 23:0) -/

theorem test_decode_cfgBegin : decode 0b00000001000000000000000000000011#32 = .command (.cfgBegin 3) := by decide
theorem test_decode_cfgBegin_largest : decode 0b00000001111111111111111111111111#32 = .command (.cfgBegin 16777215) := by
  decide
theorem test_decode_cfgPoly : decode 0b00000010000000000000000000000111#32 = .command (.cfgPoly 7) := by decide
theorem test_decode_cfgPoly_topBit : decode 0b00000010100000000000000000000001#32 = .command (.cfgPoly 8388609) := by decide
theorem test_decode_cfgCommit : decode 0b00000011000000000000000000000000#32 = .command .cfgCommit := by decide
theorem test_decode_cfgNpar : decode 0b00000100000000000000000000000000#32 = .command .cfgNpar := by decide
theorem test_decode_encStart : decode 0b00010000000000000000000000000000#32 = .command .encStart := by decide
theorem test_decode_encBit0 : decode 0b00010001000000000000000000000000#32 = .command (.encBit false) := by decide
theorem test_decode_encBit1 : decode 0b00010001000000000000000000000001#32 = .command (.encBit true) := by decide
theorem test_decode_decStart : decode 0b00100000000000000000000000000000#32 = .command .decStart := by decide
theorem test_decode_decBit0 : decode 0b00100001000000000000000000000000#32 = .command (.decBit false) := by decide
theorem test_decode_decBit1 : decode 0b00100001000000000000000000000001#32 = .command (.decBit true) := by decide
theorem test_decode_decFlush : decode 0b00100010000000000000000000000000#32 = .command .decFlush := by decide
theorem test_decode_decTrace : decode 0b00100011000000000000000000000000#32 = .command .decTrace := by decide

/-- V21 and R75: reserved words, each rejected by its own name. -/
theorem test_decode_reserved :
    decode 0x00000000#32 = .illegal .reservedOp ∧ decode 0xFF000000#32 = .illegal .reservedOp ∧
    decode 0x05000000#32 = .illegal .reservedOp ∧ decode 0x24000000#32 = .illegal .reservedOp ∧
    decode 0x03000001#32 = .illegal .argNotZero ∧ decode 0x23800000#32 = .illegal .argNotZero ∧
    decode 0x11000002#32 = .illegal .argNotBit ∧ decode 0x21800001#32 = .illegal .argNotBit := by decide

/-- The words the spec writes beside the commands (R95, R96, R112). -/
theorem test_encode_words :
    encode (.cfgBegin 3) = 0x01000003#32 ∧ encode (.cfgPoly 8) = 0x02000008#32 ∧ encode .cfgCommit = 0x03000000#32 ∧
    encode .cfgNpar = 0x04000000#32 ∧ encode .encStart = 0x10000000#32 ∧ encode (.encBit true) = 0x11000001#32 ∧
    encode .decStart = 0x20000000#32 ∧ encode (.decBit true) = 0x21000001#32 ∧ encode .decFlush = 0x22000000#32 ∧
    encode .decTrace = 0x23000000#32 := by decide

theorem test_decodeTableWord : decodeTableWord 32 0x11000001 = some (.encBit true) ∧
    decodeTableWord 32 0x11000002 = none := by decide

/-! ### WellFormed refuses what no word can spell (R71) -/

theorem test_illFormed_constraint : (Instr.cfgBegin (2 ^ 24)).wellFormed = false := by decide
theorem test_illFormed_polynomial : (Instr.cfgPoly (2 ^ 24)).wellFormed = false := by decide
theorem test_wellFormed_largest : (Instr.cfgPoly (2 ^ 24 - 1)).wellFormed = true := by decide

/-! ### The assembler's text (R80 to R84) -/

/-- The example line of R80. -/
theorem test_assemble_poly : assembleLine "CFG.POLY 7    # 0x02000007".toList = some [0x02000007#32] := by decide
/-- R81, with a hexadecimal and a binary operand. -/
theorem test_assemble_construct :
    assembleLine ("CONSTRUCT 3, ".toList ++ [Char.ofNat 0x7B] ++ "0x7, 101b".toList ++ [Char.ofNat 0x7D]) =
    some [0x01000003#32, 0x02000007#32, 0x02000005#32, 0x03000000#32] := by decide
/-- R83. -/
theorem test_assemble_encode : assembleLine "ENCODE \"10\"".toList =
    some [0x10000000#32, 0x11000001#32, 0x11000000#32] := by decide

/-! ### States -/

/-- The next state of an outcome. -/
def nextOf (o : Host.Outcome State Fault Refusal) : Option State :=
  match o with
  | .next s => some s
  | .fault _ => none
  | .refused _ => none

/-- After CFG.BEGIN 3, CFG.POLY 7, CFG.POLY 5 (P1). -/
def configuring75 : State := { State.reset with mode := .configuring, k := 3, n := 2, g := [7, 5] }

/-- After `CONSTRUCT 3, {7, 5}`, with the output table of V9. -/
def ready75 : State :=
  { State.reset with
    mode := .ready
    k := 3
    n := 2
    g := [7, 5]
    out := [[false, false], [true, true], [true, false], [false, true],
            [true, true], [false, false], [false, true], [true, false]]
    pm := [.fin 0, .inf, .inf, .inf] }

/-- P2 just before DEC.TRACE (V13 b). -/
def decoded75 : State :=
  { ready75 with
    pm := [.fin 3, .fin 2, .fin 3, .fin 1]
    tr := [[0, 2, 0, 2], [0, 2, 0, 2], [1, 3, 1, 3], [1, 3, 1, 2]] }

/-- An instance with room for one polynomial and one column. -/
def tight : Config := { kmax := 3, nmax := .atMost 1, tmax := .atMost 1 }

/-- A `READY` block of the tight instance with a full trellis and a pending bit: its next group does not fit. -/
def full75 : State := { ready75 with config := tight, tr := [[0, 2, 0, 2]], gb := [true] }

/-- A block that has faulted. -/
def failed75 : State := { ready75 with mode := .failed, err := 6, errcmd := 0x01000003#32 }

/-! ### One step of each command -/

/-- R95's example. -/
theorem test_cfgBegin : (nextOf (exec (.cfgBegin 3) State.reset)).map (fun t => (t.k, t.n, t.mode)) =
    some (3, 0, .configuring) := by decide
/-- V11: `CFG.BEGIN 25` with `KMAX = 24`. -/
theorem test_cfgBegin_fault : (nextOf (exec (.cfgBegin 25) State.reset)).map (fun t => (t.mode, t.err, t.errcmd)) =
    some (.failed, 4, 0x01000019#32) := by decide
/-- R96's example: 7 is accepted after nothing else. -/
theorem test_cfgPoly : (nextOf (exec (.cfgPoly 7) { configuring75 with n := 0, g := [] })).map (fun t => (t.g, t.n)) =
    some ([7], 1) := by decide
/-- P4: `8 >= 2^3`. -/
theorem test_cfgPoly_fault : (nextOf (exec (.cfgPoly 8) { configuring75 with n := 1, g := [7] })).map
    (fun t => (t.mode, t.err, t.errcmd, t.g)) = some (.failed, 3, 0x02000008#32, [7]) := by decide
/-- V8: a set that is no palindrome pins the tap order. -/
theorem test_cfgCommit : (nextOf (exec .cfgCommit { configuring75 with g := [6, 3] })).map (·.out) =
    some [[false, false], [true, false], [true, true], [false, true],
          [false, true], [true, true], [true, false], [false, false]] := by decide
/-- R98's example and the contexts of P1. -/
theorem test_cfgCommit_contexts : nextOf (exec .cfgCommit configuring75) = some ready75 := by decide
/-- V11: `RES = 2`. -/
theorem test_cfgNpar : (nextOf (exec .cfgNpar ready75)).map (·.res) = some 2 := by decide
/-- R111's example. -/
theorem test_encStart : nextOf (exec .encStart { ready75 with es := 3, encOut := [true] }) =
    some { ready75 with encOut := [true] } := by decide
/-- R112's example. -/
theorem test_encBit : (nextOf (exec (.encBit true) { ready75 with es := 2, encOut := [true] })).map
    (fun t => (t.encOut, t.es)) = some ([true, false, true], 3) := by decide
/-- V8: the encoder's state 3 on input 0 goes to state 1 and emits 01. -/
theorem test_encBit_taps : (nextOf (exec (.encBit false) { ready75 with
      g := [6, 3]
      out := outputTable 3 [6, 3]
      es := 3 })).map (fun t => (t.encOut, t.es)) = some ([false, true], 1) := by decide
/-- R122's example. -/
theorem test_decStart : nextOf (exec .decStart { decoded75 with gb := [true] }) = some ready75 := by decide
/-- R123's example: the first bit of a group. -/
theorem test_decBit_fills : (nextOf (exec (.decBit false) ready75)).map (fun t => (t.gb, t.tr)) =
    some ([false], []) := by decide
/-- V16, step 3: two equal finite candidates at target 2, the even predecessor wins. -/
theorem test_decBit_tie : (nextOf (exec (.decBit false) { ready75 with
      pm := [.fin 1, .fin 3, .fin 1, .fin 2]
      tr := [[0, 2, 0, 2], [0, 2, 0, 2], [0, 3, 0, 2]]
      gb := [false] })).map (fun t => (t.pm, t.tr.getLast?, t.gb)) =
    some ([.fin 1, .fin 2, .fin 3, .fin 2], some [0, 2, 0, 2], []) := by decide
/-- R124's example: `1` padded to `10`. -/
theorem test_decFlush : (nextOf (exec .decFlush { ready75 with gb := [true] })).map (fun t => (t.pm, t.tr, t.gb)) =
    some ([.fin 1, .inf, .fin 1, .inf], [[0, 2, 0, 2]], []) := by decide
/-- The capacity fault of the padding step (R124, P5). -/
theorem test_decFlush_fault : (nextOf (exec .decFlush full75)).map (fun t => (t.mode, t.err, t.errcmd, t.gb)) =
    some (.failed, 7, 0x22000000#32, [true]) := by decide
/-- P2: `1011` is decoded in spite of the flipped bit. -/
theorem test_decTrace : (nextOf (exec .decTrace decoded75)).map (fun t => (t.decOut, t.pm, t.tr)) =
    some ([true, false, true, true], ready75.pm, []) := by decide
/-- V14: states 0 and 2 tie at metric 1 and the lower one wins. -/
theorem test_decTrace_tie : (nextOf (exec .decTrace { ready75 with
      pm := [.fin 1, .inf, .fin 1, .inf]
      tr := [[0, 2, 0, 2]] })).map (·.decOut) = some [false] := by decide

/-- V21: what the first word after reset does, through `withFetchWord` and `step`. -/
theorem test_firstWord :
    (nextOf (step (State.reset.withFetchWord 32 0x01000002))).map (fun t => (t.mode, t.k)) = some (.configuring, 2) ∧
    (nextOf (step (State.reset.withFetchWord 32 0x03000000))).map (·.err) = some 6 ∧
    (nextOf (step (State.reset.withFetchWord 32 0x03000001))).map (·.err) = some 5 := by decide

/-- R178: `ENC.BIT 2` in `UNCONFIGURED` is `ILLEGAL_COMMAND`, and `CFG.POLY 0` in `READY` is `WRONG_MODE`. -/
theorem test_checkOrder :
    (nextOf (runWord 0x11000002#32 State.reset)).map (·.err) = some 5 ∧
    (nextOf (runWord 0x02000000#32 ready75)).map (·.err) = some 6 := by decide

/-! ### Witnesses: for each statement with hypotheses, a state and operands that meet all of them, clause by clause at the ends of
their ranges -/

theorem tight_wellFormed : tight.WellFormed := ⟨by decide, by decide, by decide, by decide⟩

theorem document_wellFormed : Config.document.WellFormed := ⟨by decide, by decide, rfl, rfl⟩

/-- The `READY` block of V9 meets the invariant. -/
theorem ready75_invariant : Invariant ready75 where
  config_ok := document_wellFormed
  failed_iff := by decide
  errcmd_zero := by decide
  quiet := by decide
  res_ready := by decide
  registers_ok _ := ⟨by decide, by decide, rfl, by decide, by decide⟩
  ready_ok _ :=
    { n_pos := by decide
      out_length := by decide
      out_width := by decide
      out_entry := by decide
      es_lt := by decide
      gb_lt := by decide
      tr_le := rfl
      tr_column := by decide
      pm_length := by decide
      pm_finite := by decide
      pm_le := by
        intro t ht m hm
        have : t = 0 ∨ t = 1 ∨ t = 2 ∨ t = 3 := by simp only [ready75] at ht; omega
        rcases this with rfl | rfl | rfl | rfl <;> simp_all [ready75, metricAt, State.reset, State.resetWith]
        omega
      tr_finite := by decide }

/-- A `READY` block of a run with one column in its trellis: `CONSTRUCT 2, {3}` and `DEC.BIT 1`. -/
def reached : State :=
  { State.reset with
    mode := .ready
    k := 2
    n := 1
    g := [3]
    out := [[false], [true], [true], [false]]
    pm := [.fin 1, .fin 0]
    tr := [[0, 0]] }

/-- The states between the words of that run, before the last one. -/
def reached0 : State := { State.reset with pending := commandMoves [.cfgBegin 2, .cfgPoly 3, .cfgCommit, .decBit true] }
def reached1 : State :=
  { State.reset with mode := .configuring, k := 2, pending := commandMoves [.cfgPoly 3, .cfgCommit, .decBit true] }
def reached2 : State :=
  { State.reset with mode := .configuring, k := 2, n := 1, g := [3], pending := commandMoves [.cfgCommit, .decBit true] }
def reached3 : State :=
  { reached with pm := [.fin 0, .inf], tr := [], pending := commandMoves [.decBit true] }

theorem reached_reachable : Reachable reached := by
  have h0 : Reachable reached0 := .issue (commandMoves [.cfgBegin 2, .cfgPoly 3, .cfgCommit, .decBit true])
    (.reset Config.document document_wellFormed)
  have h1 : Reachable reached1 := .step h0 rfl
  have h2 : Reachable reached2 := .step h1 rfl
  have h3 : Reachable reached3 := .step h2 rfl
  exact .step h3 rfl

theorem witness_DecodingIsTotal :
    (0x00000000#32 : Word).toNat / 2 ^ 24 = 0x00 ∧ (0xFF000000#32 : Word).toNat / 2 ^ 24 = 0xFF ∧
    ((0x03000001#32 : Word).toNat / 2 ^ 24 = 0x03 ∧ (0x03000001#32 : Word).toNat % 2 ^ 24 ≠ 0) ∧
    ((0x11000002#32 : Word).toNat / 2 ^ 24 = 0x11 ∧ (0x11000002#32 : Word).toNat % 2 ^ 24 > 1) ∧
    (0x01FFFFFF#32 : Word).toNat / 2 ^ 24 = 0x01 ∧ (0x02000000#32 : Word).toNat / 2 ^ 24 = 0x02 ∧
    ((0x23000000#32 : Word).toNat / 2 ^ 24 = 0x23 ∧ (0x23000000#32 : Word).toNat % 2 ^ 24 = 0) ∧
    ((0x21000001#32 : Word).toNat / 2 ^ 24 = 0x21 ∧ (0x21000001#32 : Word).toNat % 2 ^ 24 ≤ 1) ∧
    decode 0x11000002#32 = .illegal .argNotBit ∧ State.reset.mode ≠ .failed := by decide

theorem witness_DecodeOfEncode :
    (Instr.cfgBegin (2 ^ 24 - 1)).wellFormed = true ∧ (Instr.cfgPoly 0).wellFormed = true ∧
    Instr.decTrace.wellFormed = true := by decide

theorem witness_EncodeOfDecode :
    decode 0x01FFFFFF#32 = .command (.cfgBegin (2 ^ 24 - 1)) ∧ decode 0x21000001#32 = .command (.decBit true) := by decide

theorem witness_StepRunsDecodedCommand :
    (State.reset.issue [.command 0x01000003#32]).pending = .command 0x01000003#32 :: [] ∧
    decode 0x01000003#32 = .command (.cfgBegin 3) ∧ 0x01000003 < 2 ^ 32 ∧
    decode (BitVec.ofNat 32 0x01000003) = .command (.cfgBegin 3) := by decide

theorem witness_IllegalWordRaises :
    (State.reset.issue [.command 0#32]).pending = .command 0#32 :: [] ∧ decode 0#32 = .illegal .reservedOp ∧
    (State.reset.issue [.command 0#32]).mode ≠ .failed := by decide

theorem witness_FailedIgnoresWordsUntilReset :
    (failed75.issue [.command 0#32, .reset]).pending = .command 0#32 :: [.reset] ∧
    (failed75.issue [.command 0#32, .reset]).mode = .failed ∧
    HostMove.reset ∉ (failed75.issue [.command 0#32, .reset]).pending.take 1 := by decide

theorem witness_ResetMoveResets :
    (failed75.issue [.reset, .read]).pending = .reset :: [.read] ∧ (ready75.issue [.reset]).pending = .reset :: [] := by decide

theorem witness_ReadingAndIdlingChangeNothing :
    (ready75.issue [.read]).pending = .read :: [] ∧ ready75.pending = [] := by decide

theorem witness_MovesTakeEffectInOrder :
    runMoves [.read, .command 0x04000000#32] ready75 = .next { ready75 with res := 2 } := by rfl

theorem witness_WrongModeRaises :
    (ready75.mode ≠ .failed ∧ ready75.mode ≠ .unconfigured ∧ ready75.mode ≠ .configuring) ∧
    (State.reset.mode ≠ .failed ∧ State.reset.mode ≠ .ready ∧ State.reset.mode ≠ .configuring) := by decide

theorem witness_FaultEntryIsPrecise :
    exec .encStart State.reset = .next (raise .wrongMode 0x10000000#32 State.reset) ∧ State.reset.mode ≠ .failed ∧
    (raise .wrongMode 0x10000000#32 State.reset).mode = .failed := ⟨rfl, by decide, by decide⟩

theorem witness_ChecksComeInOrder :
    failed75.mode = .failed ∧
    (State.reset.mode ≠ .failed ∧ decode 0x03000001#32 = .illegal .argNotZero) ∧
    (ready75.mode ≠ .failed ∧ decode 0x02000000#32 = .command (.cfgPoly 0) ∧
      ready75.mode ≠ (Instr.cfgPoly 0).acceptedIn) ∧
    (State.reset.mode = .unconfigured ∧ decode 0x01000001#32 = .command (.cfgBegin 1) ∧
      decode 0x01000019#32 = .command (.cfgBegin 25) ∧ State.reset.config.kmax < 25) ∧
    (configuring75.mode = .configuring ∧ decode 0x02000000#32 = .command (.cfgPoly 0) ∧
      decode 0x02000008#32 = .command (.cfgPoly 8) ∧ 2 ^ configuring75.k ≤ 8 ∧
      decode 0x02000007#32 = .command (.cfgPoly 7) ∧ 7 < 2 ^ configuring75.k ∧
      ({ configuring75 with config := tight, n := 1 } : State).config.nmax =
        .atMost ({ configuring75 with config := tight, n := 1 } : State).n) ∧
    (decode 0x03000000#32 = .command .cfgCommit ∧ ({ configuring75 with n := 0 } : State).n = 0) ∧
    (ready75.mode = .ready ∧ decode 0x21000000#32 = .command (.decBit false) ∧ ready75.gb.length + 1 < ready75.n) ∧
    (full75.mode = .ready ∧ full75.n ≤ full75.gb.length + 1 ∧ full75.config.tmax = .atMost full75.tr.length ∧ full75.gb ≠ []) ∧
    (decode 0x22000000#32 = .command .decFlush ∧ decode 0x23000000#32 = .command .decTrace ∧ ready75.gb = []) := by decide

theorem witness_ModeTransitions :
    step (ready75.issue [.read]) = .next ready75 ∧ step (failed75.issue [.reset]) = .next State.reset ∧
    step (State.reset.withFetchWord 32 0x01000003) = .next { State.reset with k := 3, n := 0, mode := .configuring } ∧
    step (configuring75.withFetchWord 32 0x03000000) = .next ready75 ∧
    step (ready75.withFetchWord 32 0x01000003) = .next failed75 := ⟨rfl, rfl, rfl, rfl, rfl⟩

theorem witness_CapacityExactlyWhenFull :
    full75.mode ≠ .failed ∧ full75.err = 0 ∧
    exec (.decBit true) full75 = .next (raise .capacity 0x21000001#32 full75) ∧
    exec .decFlush full75 = .next (raise .capacity 0x22000000#32 full75) ∧
    exec (.cfgPoly 7) { configuring75 with config := tight, n := 1, g := [7] } =
      .next (raise .capacity 0x02000007#32 { configuring75 with config := tight, n := 1, g := [7] }) ∧
    exec .decStart ready75 = .next ready75 ∧ ready75.config.nmax = .unbounded ∧ ready75.config.tmax = .unbounded :=
  ⟨by decide, rfl, rfl, rfl, rfl, rfl, rfl, rfl⟩

theorem witness_CfgBeginEffect :
    (State.reset.mode = .unconfigured ∧ 2 ≤ State.reset.config.kmax ∧ 24 ≤ State.reset.config.kmax) ∧
    ((1 : Nat) < 2 ∧ State.reset.config.kmax < 25) ∧ configuring75.mode = .configuring ∧ ready75.mode = .ready := by decide

theorem witness_CfgPolyEffect :
    (configuring75.mode = .configuring ∧ configuring75.n ≤ configuring75.g.length ∧ 1 < 2 ^ configuring75.k ∧
      2 ^ configuring75.k - 1 ≠ 0 ∧ configuring75.config.nmax ≠ .atMost configuring75.n) ∧ 2 ^ configuring75.k ≤ 8 ∧
    (({ configuring75 with config := tight, n := 1 } : State).mode = .configuring ∧ 7 < 2 ^ configuring75.k ∧
      ({ configuring75 with config := tight, n := 1 } : State).config.nmax = .atMost 1) ∧
    State.reset.mode = .unconfigured ∧ ready75.mode = .ready := by decide

theorem witness_CfgCommitEffect :
    (configuring75.mode = .configuring ∧ configuring75.n ≤ configuring75.g.length ∧ configuring75.n ≠ 0) ∧
    (({ configuring75 with n := 0 } : State).mode = .configuring ∧ ({ configuring75 with n := 0 } : State).n = 0) ∧
    State.reset.mode = .unconfigured ∧ ready75.mode = .ready := by decide

theorem witness_modes : State.reset.mode = .unconfigured ∧ configuring75.mode = .configuring ∧ ready75.mode = .ready := by
  decide

theorem witness_CompareSelectCases : (1 : Nat) ≤ 1 ∧ (1 : Nat) < 2 ∧
    compareSelect (.fin 1) 0 (.fin 1) 1 = (.fin 1, 0) ∧ compareSelect (.fin 2) 0 (.fin 1) 1 = (.fin 1, 1) := by decide

theorem witness_EmptyInputsGiveEmptyOutputs : ready75.mode = .ready ∧ ready75.pending = [] ∧
    runCommands (decodeCommands []) ready75 = .next ready75 := ⟨rfl, rfl, rfl⟩

theorem witness_ConfigurationIsImmutable :
    exec .cfgNpar ready75 = .next { ready75 with res := 2 } ∧ ready75.mode = .ready ∧
    exec .cfgNpar failed75 = .next failed75 ∧ failed75.mode = .failed := ⟨rfl, rfl, rfl, rfl⟩

theorem witness_RevKReversesBits : (0 : Nat) < 2 ^ 0 ∧ 109 < 2 ^ 7 ∧ revK 7 109 = 91 ∧ revK 7 79 = 121 ∧ revK 3 6 = 3 := by
  decide

theorem witness_NextStateLaws :
    2 ≤ 2 ∧ 1 < 2 ^ (2 - 1) ∧ nextState 2 1 true = 1 ∧ 63 < 2 ^ (7 - 1) ∧ nextState 7 63 true = 63 ∧
    nextState 7 42 true = 53 := by decide

theorem witness_EncBitEmitsParities : Invariant ready75 ∧ ready75.mode = .ready := ⟨ready75_invariant, rfl⟩

theorem code75_valid : (⟨3, [7, 5]⟩ : Codec).Valid := ⟨by decide, by decide, by decide⟩

theorem code2even_valid : (⟨2, [2]⟩ : Codec).Valid := ⟨by decide, by decide, by decide⟩

theorem witness_EncoderIsTheShiftRegister :
    (⟨3, [7, 5]⟩ : Codec).Valid ∧ 3 < [true, false, true, true].length ∧ 1 < [7, 5].length ∧
    (⟨3, [7, 5]⟩ : Codec).encode [true, false, true, true] = [true, true, true, false, false, false, false, true] :=
  ⟨code75_valid, by decide, by decide, by decide⟩

/-- V12: after `1011` the state is 3, its newest bit on top. -/
theorem witness_StateHoldsInputHistory :
    2 ≤ (⟨3, [7, 5]⟩ : Codec).k ∧ 2 ≤ (⟨3, [7, 5]⟩ : Codec).k - 1 ∧
    (⟨3, [7, 5]⟩ : Codec).stateAfter [true, false, true, true] = 3 ∧ (⟨3, [7, 5]⟩ : Codec).stateAfter [true] = 2 := by decide

theorem witness_PredecessorsAreExact : 2 ≤ 2 ∧ 1 < 2 ^ (2 - 1) ∧ nextState 3 3 false = 1 ∧ pred1 3 1 = 3 := by decide

theorem witness_DecBitEffect :
    (ready75.mode = .ready ∧ ready75.gb.length + 1 < ready75.n) ∧
    (({ ready75 with gb := [true] } : State).mode = .ready ∧ ({ ready75 with gb := [true] } : State).gb.length + 1 = 2 ∧
      ready75.config.tmax ≠ .atMost ready75.tr.length) ∧
    (full75.mode = .ready ∧ full75.gb.length + 1 = full75.n ∧ full75.config.tmax = .atMost full75.tr.length) := by decide

/-- For DEC.FLUSH and DEC.TRACE, both of which have these cases. -/
theorem witness_DecFlushEffect_DecTraceEffect :
    (ready75.mode = .ready ∧ ready75.gb = []) ∧
    (({ ready75 with gb := [true] } : State).mode = .ready ∧ ({ ready75 with gb := [true] } : State).gb ≠ [] ∧
      ready75.config.tmax ≠ .atMost ready75.tr.length) ∧
    (full75.mode = .ready ∧ full75.gb ≠ [] ∧ full75.config.tmax = .atMost full75.tr.length) := by decide

/-- The `READY` block of V9 with the first bit of a group received. -/
def half75 : State := { ready75 with gb := [false] }

theorem half75_invariant : Invariant half75 where
  config_ok := document_wellFormed
  failed_iff := by decide
  errcmd_zero := by decide
  quiet := by decide
  res_ready := by decide
  registers_ok _ := ⟨by decide, by decide, rfl, by decide, by decide⟩
  ready_ok _ := by
    have r := ready75_invariant.ready_ok rfl
    exact ⟨r.1, r.2, r.3, r.4, r.5, by decide, r.7, r.8, r.9, r.10, r.11, r.12⟩

/-- R126's example: the step on `00`. -/
theorem witness_SmallestMetricGrowsByAtMostN :
    Invariant half75 ∧ half75.mode = .ready ∧ half75.gb.length + 1 = half75.n ∧
    exec (.decBit false) half75 =
      .next { ready75 with pm := [.fin 0, .inf, .fin 2, .inf], tr := [[0, 2, 0, 2]] } ∧
    half75.pm.getD 0 .inf = .fin 0 :=
  ⟨half75_invariant, rfl, rfl, rfl, rfl⟩

/-- For the statements about every `READY` state of a run. -/
theorem witness_readyStateOfARun :
    Reachable reached ∧ reached.mode = .ready ∧ 0 < reached.tr.length ∧ 1 < 2 ^ (reached.k - 1) ∧
    reached.pm.getD 1 .inf = .fin 0 ∧
    step (reached.withFetchWord 32 0x21000000) = .next { reached with pm := [.fin 1, .fin 0], tr := [[0, 0], [0, 1]] } :=
  ⟨reached_reachable, rfl, by decide, by decide, rfl, rfl⟩

theorem witness_TracebackVisitsFiniteStates :
    Reachable reached ∧ reached.mode = .ready ∧
    FirstMinimum reached.k reached.pm ((fun c => c) reached.tr.length) ∧
    ∀ c < reached.tr.length, (fun c => c) c = (reached.tr.getD c []).getD ((fun c => c) (c + 1)) 0 :=
  ⟨reached_reachable, rfl, ⟨by decide, by decide, by decide⟩, by decide⟩

theorem witness_InvariantHoldsAfterReset : tight.WellFormed ∧ Config.document.WellFormed :=
  ⟨tight_wellFormed, document_wellFormed⟩

theorem witness_EveryStepKeepsTheInvariant : Invariant ready75 ∧ step ready75 = .next ready75 ∧ Invariant half75 ∧
    step half75 = .next half75 := ⟨ready75_invariant, rfl, half75_invariant, rfl⟩

/-- Two blocks that differ in every register that reset leaves unspecified. -/
theorem witness_UnspecifiedResetValuesAreNeverSeen :
    let s := State.reset
    let t : State := { State.reset with
      k := 7, n := 3, g := [9], out := [[true]], es := 5, gb := [true], pm := [.fin 3], tr := [[1]] }
    s.mode = .unconfigured ∧ t.mode = .unconfigured ∧ s.observe = t.observe ∧ s.config = t.config ∧
      s.pending = t.pending := by decide

theorem witness_StreamsOnlyGrow :
    exec (.encBit true) ready75 = .next { ready75 with es := 2, encOut := [true, true] } ∧
    exec .decTrace decoded75 = .next { ready75 with decOut := [true, false, true, true] } := ⟨rfl, rfl⟩

theorem witness_EncoderAndDecoderAreIndependent :
    ready75.mode = .ready ∧ ready75.pending = [] ∧
    (∀ i ∈ [Instr.encBit true, .decBit false, .cfgNpar], i.acceptedIn = .ready) ∧
    runCommands [.encBit true, .decBit false, .cfgNpar] ready75 =
      .next { ready75 with es := 2, encOut := [true, true], gb := [false], res := 2 } :=
  ⟨rfl, rfl, by decide, rfl⟩

theorem witness_ConstructCommandsConstruct :
    State.reset.mode = .unconfigured ∧ State.reset.pending = [] ∧ 24 < 2 ^ 24 ∧ (∀ p ∈ [7, 5], p < 2 ^ 24) ∧
    (2 ≤ 3 ∧ 3 ≤ State.reset.config.kmax ∧ [7, 5] ≠ [] ∧ (∀ p ∈ [7, 5], 1 ≤ p ∧ p < 2 ^ 3)) ∧
    State.reset.config.nmax.Admits 2 ∧ ¬ 2 ≤ 1 :=
  ⟨by decide, by decide, by decide, by decide, by decide, rfl, by decide⟩

theorem witness_EncodeCommandsEncode :
    Invariant ready75 ∧ ready75.mode = .ready ∧ ready75.pending = [] ∧
    (∀ i ∈ [Instr.encStart, .decBit true, .encBit true], i.acceptedIn = .ready) ∧
    [Instr.encStart, .decBit true, .encBit true].filter isEncCommand = encodeCommands [true] ∧
    runCommands [.encStart, .decBit true, .encBit true] ready75 =
      .next { ready75 with es := 2, encOut := [true, true], gb := [true] } :=
  ⟨ready75_invariant, rfl, rfl, by decide, by decide, rfl⟩

/-- A `READY` block of an instance with room for one column. -/
def tight7 : State :=
  { State.resetWith tight with
    mode := .ready
    k := 2
    n := 1
    g := [3]
    out := [[false], [true], [true], [false]]
    pm := [.fin 0, .inf] }

theorem tight7_invariant : Invariant tight7 where
  config_ok := tight_wellFormed
  failed_iff := by decide
  errcmd_zero := by decide
  quiet := by decide
  res_ready := by decide
  registers_ok _ := ⟨by decide, by decide, by decide, by decide, by decide⟩
  ready_ok _ :=
    { n_pos := by decide
      out_length := by decide
      out_width := by decide
      out_entry := by decide
      es_lt := by decide
      gb_lt := by decide
      tr_le := by decide
      tr_column := by decide
      pm_length := by decide
      pm_finite := by decide
      pm_le := by
        intro t ht m hm
        have : t = 0 ∨ t = 1 := by simp only [tight7] at ht; omega
        rcases this with rfl | rfl <;> simp_all [tight7, metricAt, State.resetWith]
      tr_finite := by decide }

theorem witness_DecodeCommandsDecode :
    Invariant tight7 ∧ tight7.mode = .ready ∧ tight7.pending = [] ∧
    tight7.config.tmax.Admits (ceilDiv [true].length tight7.n) ∧
    ¬ tight7.config.tmax.Admits (ceilDiv [true, true].length tight7.n) ∧
    (∀ i ∈ [Instr.decStart, .encBit true, .decTrace], i.acceptedIn = .ready) ∧
    [Instr.decStart, .encBit true, .decTrace].filter isDecCommand = decodeCommands [] ∧
    runCommands [.decStart, .encBit true, .decTrace] tight7 = .next { tight7 with es := 1, encOut := [true] } :=
  ⟨tight7_invariant, rfl, rfl, by decide, by decide, by decide, by decide, rfl⟩

theorem witness_OutputLengths : (⟨3, [7, 5]⟩ : Codec).polys ≠ [] ∧ ceilDiv 7 2 = 4 ∧ ceilDiv 0 2 = 0 := by decide

/-- V13 c: seven bits decode to four. -/
theorem witness_DecodingIsMaximumLikelihood :
    (⟨3, [7, 5]⟩ : Codec).Valid ∧
    (⟨3, [7, 5]⟩ : Codec).decode [true, true, true, false, false, false, false] = [true, false, true, false] ∧
    [true, false, true, true].length = [true, false, true, false].length := ⟨code75_valid, by decide, rfl⟩

/-- V12 and V15: a code with an odd polynomial, and the smallest one without. -/
theorem witness_RoundTripExactlyForOddPolynomials :
    ((⟨3, [7, 5]⟩ : Codec).Valid ∧ ∃ p ∈ [7, 5], p % 2 = 1) ∧
    ((⟨2, [2]⟩ : Codec).Valid ∧ ∀ p ∈ [2], p % 2 = 0) ∧
    (⟨2, [2]⟩ : Codec).encode [true] = [false] ∧ (⟨2, [2]⟩ : Codec).decode [false] = [false] :=
  ⟨⟨code75_valid, by decide⟩, ⟨code2even_valid, by decide⟩, by decide, by decide⟩

end Sys2Proof.Tests
end

section
/-! PROOFS. Family 00_scope: a step runs the decoded command (R11, R61, R203), and the compare-select with its guarded addition
(R17, R127, R128). -/

namespace Sys2Proof.Machine

/-! ### From a word of the queue to the command it spells -/

theorem runWord_of_command {w : Word} {i : Instr} (h : decode w = .command i) (s : State) : runWord w s = exec i s := by
  rw [runWord, h]

/-- A move placed in front of the queue is the one the next step takes, and taking it leaves the state as it was before. -/
theorem step_issueFirst (move : HostMove) (s : State) : step (s.issueFirst move) = runMove move s :=
  step_move (issueFirst_pending move s)

theorem withFetchWord_eq_issueFirst {w : Nat} (h : w < 2 ^ 32) (s : State) :
    s.withFetchWord 32 w = s.issueFirst (.command (BitVec.ofNat 32 w)) := by
  rw [State.withFetchWord, Nat.mod_eq_of_lt h]

/-- Settles O6: the step is `runMove` on the state with the move taken, and a word that decodes to `i` runs `exec i`. -/
theorem stepRunsDecodedCommand : Obligations.StepRunsDecodedCommand := by
  unfold Obligations.StepRunsDecodedCommand
  constructor
  · intro s w later i hp hd
    calc step s = runMove (.command w) { s with pending := later } := step_move hp
      _ = exec i { s with pending := later } := runWord_of_command hd _
  · intro s w i hw hd
    calc step (s.withFetchWord 32 w)
        = step (s.issueFirst (.command (BitVec.ofNat 32 w))) := by rw [withFetchWord_eq_issueFirst hw]
      _ = runMove (.command (BitVec.ofNat 32 w)) s := step_issueFirst _ _
      _ = exec i s := runWord_of_command hd s

/-! ### The order of metrics and the two outcomes of the compare-select -/

theorem ltInf_fin_inf (m : Nat) : ltInf (.fin m) .inf = true := ltInf_iff.mpr (leInf_inf_fin m)

theorem ltInf_inf_left (a : Metric) : ltInf .inf a = false := by
  rw [ltInf, leInf_inf, Bool.not_true]

theorem compareSelect_of_leInf {pm1 pm2 : Metric} (h : leInf pm1 pm2 = true) (s0 s1 : Nat) :
    compareSelect pm1 s0 pm2 s1 = (pm1, s0) := if_pos h

theorem compareSelect_of_not_leInf {pm1 pm2 : Metric} (h : leInf pm1 pm2 = false) (s0 s1 : Nat) :
    compareSelect pm1 s0 pm2 s1 = (pm2, s1) := by
  rw [compareSelect, h, if_neg Bool.false_ne_true]

/-- Settles O32: each case of the compare-select is decided by `leInf` of its two candidates, with `INF` the greatest. -/
theorem compareSelectCases : Obligations.CompareSelectCases := by
  unfold Obligations.CompareSelectCases
  refine ⟨addInf_inf, addInf_fin, fun a b => ltInf_iff, fun m => ⟨ltInf_fin_inf m, ltInf_inf_left _⟩, ltInf_inf_left _,
    fun a b s0 s1 hab => ?firstAtMostSecond, fun a b s0 s1 hba => ?secondSmaller, fun a s0 s1 => ?secondInf,
    fun b s0 s1 => ?firstInf, fun s0 s1 => ?bothInf⟩
  case firstAtMostSecond => exact compareSelect_of_leInf (by simpa using hab) s0 s1
  case secondSmaller => exact compareSelect_of_not_leInf (by simpa using hba) s0 s1
  case secondInf => exact compareSelect_of_leInf (leInf_inf _) s0 s1
  case firstInf => exact compareSelect_of_not_leInf (leInf_inf_fin b) s0 s1
  case bothInf => exact compareSelect_of_leInf (leInf_inf _) s0 s1

end Sys2Proof.Machine
end

section
/-! PROOFS. Family 10_state: the invariant holds after reset and every step keeps it (R39, R21, R130, R132), so it holds of every
state of a run. -/

namespace Sys2Proof.Machine

/-! ### After reset (R191, R192) -/

theorem invariant_resetWith {c : Config} (h : c.WellFormed) : Invariant (State.resetWith c) where
  config_ok := h
  failed_iff := by simp
  errcmd_zero _ := rfl
  quiet _ := ⟨rfl, rfl, rfl⟩
  res_ready hm := by simp at hm
  registers_ok hm := by simp at hm
  ready_ok hm := by simp at hm

/-- A reset keeps the parameters `KMAX`, `NMAX`, `TMAX`, and with them the invariant (R190). -/
theorem invariant_hostReset {s : State} (h : Invariant s) : Invariant (hostReset s) :=
  invariant_pending (invariant_resetWith h.config_ok) s.pending

/-- The parameters that `State.reset` has are within R8 and R9. -/
theorem wellFormed_document : Config.document.WellFormed := ⟨by decide, by decide, rfl, rfl⟩

/-- Settles O41: nothing is configured after reset, so only the parameters `KMAX`, `NMAX`, `TMAX` and the reset values are asked
for. -/
theorem invariantHoldsAfterReset : Obligations.InvariantHoldsAfterReset := by
  unfold Obligations.InvariantHoldsAfterReset
  exact ⟨fun _ => invariant_resetWith, invariant_resetWith wellFormed_document⟩

/-! ### The commands that build a configuration (R95, R96, R98) -/

/-- Outside `FAILED` no fault code is pending (R21). -/
theorem err_eq_zero {s : State} (h : Invariant s) (hm : s.mode ≠ .failed) : s.err = 0 := by
  by_contra he
  exact hm (h.failed_iff.2 he)

theorem invariant_beginConfig {s : State} (h : Invariant s) (hm : s.mode = .unconfigured) {k : Nat} (h2 : 2 ≤ k)
    (hmax : k ≤ s.config.kmax) : Invariant { s with k := k, n := 0, mode := .configuring } where
  config_ok := h.config_ok
  failed_iff := by simp [err_eq_zero h (by simp [hm])]
  errcmd_zero := h.errcmd_zero
  quiet _ := h.quiet (.inl hm)
  res_ready hr := nomatch hr
  registers_ok _ :=
    { k_ge := h2
      k_le := hmax
      n_le := Bound.admits_zero _
      g_length := fun hn => absurd rfl hn
      g_range := by simp [State.polys] }
  ready_ok hr := nomatch hr

/-- The list `G` is exactly the polynomials delivered, as soon as there is one (R23). -/
theorem ConfigRegistersOk.polys_eq {s : State} (h : ConfigRegistersOk s) (hn : s.n ≠ 0) : s.polys = s.g :=
  List.take_of_length_le (h.g_length hn).le

theorem ConfigRegistersOk.polys_length {s : State} (h : ConfigRegistersOk s) : s.polys.length = s.n := by
  rcases Nat.eq_zero_or_pos s.n with hn | hn
  · simp [State.polys, hn]
  · rw [h.polys_eq hn.ne', h.g_length hn.ne']

theorem configRegistersOk_appendPoly {s : State} (h : ConfigRegistersOk s) {p : Nat} (h0 : p ≠ 0) (hp : p < 2 ^ s.k)
    (hc : s.config.nmax ≠ .atMost s.n) : ConfigRegistersOk (s.appendPoly p) where
  k_ge := h.k_ge
  k_le := h.k_le
  n_le := Bound.admits_succ h.n_le hc
  g_length _ := by simp [h.polys_length]
  g_range q hq := by
    have hq' : q ∈ s.polys ++ [p] := List.mem_of_mem_take hq
    rcases List.mem_append.1 hq' with hold | hnew
    · exact h.g_range q hold
    · rw [List.mem_singleton.1 hnew]
      exact ⟨Nat.one_le_iff_ne_zero.2 h0, hp⟩

theorem invariant_appendPoly {s : State} (h : Invariant s) (hm : s.mode = .configuring) {p : Nat} (h0 : p ≠ 0)
    (hp : p < 2 ^ s.k) (hc : s.config.nmax ≠ .atMost s.n) : Invariant (s.appendPoly p) where
  config_ok := h.config_ok
  failed_iff := h.failed_iff
  errcmd_zero := h.errcmd_zero
  quiet := h.quiet
  res_ready hr := by simp [hm] at hr
  registers_ok _ := configRegistersOk_appendPoly (h.registers_ok (.inl hm)) h0 hp hc
  ready_ok hr := by simp [hm] at hr

/-- CFG.COMMIT builds the table of the polynomials delivered and starts both contexts (R98). -/
theorem readyOk_commit {s : State} (h : ConfigRegistersOk s) (hn : s.n ≠ 0) : ReadyOk { s with
    out := outputTable s.k s.polys, es := 0, gb := [], pm := initialMetrics s.k, tr := [], mode := .ready } := by
  refine readyOk_fresh (Nat.one_le_iff_ne_zero.2 hn) rfl rfl rfl (outputTable_length _ _) ?width ?entry (Nat.two_pow_pos _)
  case width =>
    intro i hi
    rw [outputTable_getD _ hi, List.length_map, h.polys_length]
  case entry =>
    intro i hi j hj
    have hj' : j < s.g.length := (h.g_length hn).symm ▸ hj
    rw [outputTable_getD _ hi, h.polys_eq hn]
    simp [List.getD_eq_getElem?_getD, hj', entry]

theorem invariant_commit {s : State} (h : Invariant s) (hm : s.mode = .configuring) (hn : s.n ≠ 0) : Invariant { s with
    out := outputTable s.k s.polys, es := 0, gb := [], pm := initialMetrics s.k, tr := [], mode := .ready } where
  config_ok := h.config_ok
  failed_iff := by simp [err_eq_zero h (by simp [hm])]
  errcmd_zero := h.errcmd_zero
  quiet hq := by simp at hq
  res_ready _ := .inl (h.quiet (.inr hm)).1
  registers_ok _ := { h.registers_ok (.inl hm) with }
  ready_ok _ := readyOk_commit (h.registers_ok (.inl hm)) hn

/-! ### The commands of `READY` (R99 to R142) -/

/-- No command of `READY` writes `MODE`, the fault registers, the code or `KMAX`, `NMAX`, `TMAX` (R100), and what it writes to
`RES`, if anything, is `N` (R99). -/
theorem readyBody_frame {i : Instr} {s t : State} (hi : i.acceptedIn = .ready) (h : commandBody i s = .ok t) :
    ∃ res es encOut gb pm tr decOut, (res = s.res ∨ res = s.n) ∧ t = { s with
      res := res, es := es, encOut := encOut, gb := gb, pm := pm, tr := tr, decOut := decOut } := by
  have hok := commandBody_ok h
  cases i with
  | cfgBegin k => nomatch hi
  | cfgPoly p => nomatch hi
  | cfgCommit => nomatch hi
  | cfgNpar => exact ⟨_, _, _, _, _, _, _, .inr rfl, hok⟩
  | encStart => exact ⟨_, _, _, _, _, _, _, .inl rfl, hok⟩
  | encBit b => exact ⟨_, _, _, _, _, _, _, .inl rfl, hok⟩
  | decStart => exact ⟨_, _, _, _, _, _, _, .inl rfl, hok⟩
  | decBit b => rcases hok with ⟨-, ht⟩ | ⟨-, -, ht⟩ <;> exact ⟨_, _, _, _, _, _, _, .inl rfl, ht⟩
  | decFlush => rcases hok with ⟨-, ht⟩ | ⟨-, -, ht⟩ <;> exact ⟨_, _, _, _, _, _, _, .inl rfl, ht⟩
  | decTrace => rcases hok with ⟨-, ht⟩ | ⟨-, -, ht⟩ <;> exact ⟨_, _, _, _, _, _, _, .inl rfl, ht⟩

/-- A next state of the encoder is a state again (R92). -/
theorem nextState_lt {k state : Nat} (b : Bit) (hk : 2 ≤ k) (h : state < numStates k) :
    nextState k state b < numStates k := by
  rw [nextState_eq b hk h]
  rw [numStates_double hk] at h ⊢
  cases b <;> simp <;> omega

theorem readyOk_startDecoder {s : State} (h : ReadyOk s) : ReadyOk s.startDecoder :=
  readyOk_fresh h.n_pos rfl rfl rfl h.out_length h.out_width h.out_entry h.es_lt

/-- Every command of `READY` keeps the shapes, bounds and reachability rules of `READY` (R39). -/
theorem readyBody_readyOk {i : Instr} {s t : State} (hk : 2 ≤ s.k) (h : ReadyOk s) (hi : i.acceptedIn = .ready)
    (hb : commandBody i s = .ok t) : ReadyOk t := by
  have hok := commandBody_ok hb
  cases i with
  | cfgBegin k => nomatch hi
  | cfgPoly p => nomatch hi
  | cfgCommit => nomatch hi
  | cfgNpar => obtain rfl : t = _ := hok; exact { h with }
  | encStart => obtain rfl : t = _ := hok; exact { h with es_lt := Nat.two_pow_pos _ }
  | encBit b => obtain rfl : t = _ := hok; exact { h with es_lt := nextState_lt b hk h.es_lt }
  | decStart => obtain rfl : t = _ := hok; exact readyOk_startDecoder h
  | decBit b =>
    rcases hok with ⟨hshort, rfl⟩ | ⟨-, hroom, rfl⟩
    · exact { h with gb_lt := by simpa using hshort }
    · exact readyOk_groupTaken hk h hroom _
  | decFlush =>
    rcases hok with ⟨-, rfl⟩ | ⟨-, hroom, rfl⟩
    · exact h
    · exact readyOk_groupTaken hk h hroom _
  | decTrace =>
    rcases hok with ⟨-, rfl⟩ | ⟨-, hroom, rfl⟩
    · exact readyOk_startDecoder { h with }
    · exact readyOk_startDecoder { readyOk_groupTaken hk h hroom _ with }

theorem invariant_readyBody {i : Instr} {s t : State} (h : Invariant s) (hm : s.mode = .ready) (hi : i.acceptedIn = .ready)
    (hb : commandBody i s = .ok t) : Invariant t := by
  have hregs := h.registers_ok (.inr hm)
  have hready := readyBody_readyOk hregs.k_ge (h.ready_ok hm) hi hb
  obtain ⟨res, es, encOut, gb, pm, tr, decOut, hres, rfl⟩ := readyBody_frame hi hb
  exact {
    config_ok := h.config_ok
    failed_iff := h.failed_iff
    errcmd_zero := h.errcmd_zero
    quiet := fun hq => by simp [hm] at hq
    res_ready := fun _ => hres.elim (fun hr => hr ▸ h.res_ready hm) .inr
    registers_ok := fun _ => { hregs with }
    ready_ok := fun _ => hready }

/-! ### Every step, and so every state of a run (R203) -/

/-- A command whose checks pass keeps the invariant. -/
theorem invariant_commandBody {i : Instr} {s t : State} (h : Invariant s) (hm : s.mode = i.acceptedIn)
    (hb : commandBody i s = .ok t) : Invariant t := by
  have hok := commandBody_ok hb
  cases i with
  | cfgBegin k => obtain ⟨h2, hmax, rfl⟩ := hok; exact invariant_beginConfig h hm h2 hmax
  | cfgPoly p => obtain ⟨h0, hp, hc, rfl⟩ := hok; exact invariant_appendPoly h hm h0 hp hc
  | cfgCommit => obtain ⟨hn, rfl⟩ := hok; exact invariant_commit h hm hn
  | cfgNpar => exact invariant_readyBody h hm rfl hb
  | encStart => exact invariant_readyBody h hm rfl hb
  | encBit b => exact invariant_readyBody h hm rfl hb
  | decStart => exact invariant_readyBody h hm rfl hb
  | decBit b => exact invariant_readyBody h hm rfl hb
  | decFlush => exact invariant_readyBody h hm rfl hb
  | decTrace => exact invariant_readyBody h hm rfl hb

theorem invariant_exec {i : Instr} {s t : State} (h : Invariant s) (he : exec i s = .next t) : Invariant t := by
  rcases exec_cases he with ⟨-, rfl⟩ | ⟨-, -, rfl⟩ | ⟨-, hm, hb⟩ | ⟨-, -, c, -, rfl⟩
  · exact h
  · exact invariant_raise h _ _
  · exact invariant_commandBody h hm hb
  · exact invariant_raise h _ _

theorem invariant_step {s t : State} (h : Invariant s) (hs : step s = .next t) : Invariant t := by
  rcases step_cases hs with ⟨-, rfl⟩ | ⟨later, -, rfl⟩ | ⟨later, -, rfl⟩ | ⟨w, later, e, -, -, hw⟩ | ⟨w, later, i, -, -, he⟩
  · exact h
  · exact invariant_pending h later
  · exact invariant_hostReset (invariant_pending h later)
  · rcases runIllegal_cases hw with ⟨-, rfl⟩ | ⟨-, rfl⟩
    · exact invariant_pending h later
    · exact invariant_raise (invariant_pending h later) _ _
  · exact invariant_exec (invariant_pending h later) he

/-- Settles O42: command by command, each keeps the shapes and bounds, a fault leaves only the fault registers to be looked at,
and a reset leaves only the parameters `KMAX`, `NMAX`, `TMAX`. -/
theorem everyStepKeepsTheInvariant : Obligations.EveryStepKeepsTheInvariant := by
  unfold Obligations.EveryStepKeepsTheInvariant
  exact fun _ _ => invariant_step

/-- The invariant holds in every state of a run (R39). -/
theorem invariant_of_reachable {s : State} (h : Reachable s) : Invariant s := by
  induction h with
  | reset c ok => exact invariant_resetWith ok
  | issue moves _ ih => exact invariant_pending ih _
  | step _ taken ih => exact invariant_step ih taken

end Sys2Proof.Machine
end

section
/-! PROOFS. Family 10_state: the transitions between the modes (R20) and the two output streams (R32, R37, R197). -/

namespace Sys2Proof.Machine

/-! ### Modes (R20) -/

/-- Only CFG.BEGIN and CFG.COMMIT write `MODE` when their checks pass. -/
theorem commandBody_mode {i : Instr} {s t : State} (h : commandBody i s = .ok t) :
    t.mode = s.mode ∨ (∃ k, i = .cfgBegin k ∧ t.mode = .configuring) ∨ (i = .cfgCommit ∧ t.mode = .ready) := by
  by_cases hi : i.acceptedIn = .ready
  · obtain ⟨_, _, _, _, _, _, _, -, rfl⟩ := readyBody_frame hi h
    exact .inl rfl
  · have hok := commandBody_ok h
    cases i with
    | cfgBegin k => obtain ⟨-, -, rfl⟩ := hok; exact .inr (.inl ⟨k, rfl, rfl⟩)
    | cfgPoly p => obtain ⟨-, -, -, rfl⟩ := hok; exact .inl rfl
    | cfgCommit => obtain ⟨-, rfl⟩ := hok; exact .inr (.inr ⟨rfl, rfl⟩)
    | _ => exact absurd rfl hi

/-- What a command can do to `MODE`, faults included. -/
theorem exec_mode {i : Instr} {s t : State} (h : exec i s = .next t) :
    t.mode = s.mode ∨
    (s.mode = .unconfigured ∧ t.mode = .configuring ∧ ∃ k, i = .cfgBegin k) ∨
    (s.mode = .configuring ∧ t.mode = .ready ∧ i = .cfgCommit) ∨
    (s.mode ≠ .failed ∧ t.mode = .failed ∧ t.err ≠ 0) := by
  rcases exec_cases h with ⟨-, rfl⟩ | ⟨hf, -, rfl⟩ | ⟨-, hm, hb⟩ | ⟨hf, -, c, -, rfl⟩
  · exact .inl rfl
  · exact .inr (.inr (.inr ⟨hf, rfl, Cause.code_ne_zero .wrongMode⟩))
  · rcases commandBody_mode hb with hsame | ⟨k, rfl, ht⟩ | ⟨rfl, ht⟩
    · exact .inl hsame
    · exact .inr (.inl ⟨hm, ht, k, rfl⟩)
    · exact .inr (.inr (.inl ⟨hm, ht, rfl⟩))
  · exact .inr (.inr (.inr ⟨hf, rfl, Cause.code_ne_zero _⟩))

/-- Settles O17: a move of the host changes `MODE` only by a reset, a fault, or the two commands that write it. -/
theorem modeTransitions : Obligations.ModeTransitions := by
  unfold Obligations.ModeTransitions
  refine ⟨⟨rfl, rfl, rfl, rfl⟩, fun s t hs => ?transition⟩
  rcases step_cases hs with
    ⟨-, rfl⟩ | ⟨later, -, rfl⟩ | ⟨later, hp, rfl⟩ | ⟨w, later, e, -, -, hw⟩ | ⟨w, later, i, hp, hd, he⟩
  · exact .inl rfl
  · exact .inl rfl
  · exact .inr (.inl ⟨by simp [hp], rfl⟩)
  · rcases runIllegal_cases hw with ⟨-, rfl⟩ | ⟨hf, rfl⟩
    · exact .inl rfl
    · exact .inr (.inr (.inr (.inr ⟨hf, rfl, Cause.code_ne_zero .illegalCommand⟩)))
  · have hhead : s.pending.head? = some (.command w) := by simp [hp]
    rcases exec_mode he with hsame | ⟨hu, ht, k, rfl⟩ | ⟨hc, ht, rfl⟩ | hfault
    · exact .inl hsame
    · exact .inr (.inr (.inl ⟨hu, ht, w, k, hhead, hd⟩))
    · exact .inr (.inr (.inr (.inl ⟨hc, ht, w, hhead, hd⟩)))
    · exact .inr (.inr (.inr (.inr hfault)))

/-! ### Streams (R32, R37) -/

/-- ENC.BIT appends one group to `ENC_OUT`, DEC.TRACE appends the traceback's bits to `DEC_OUT`, and no other command writes a
stream. -/
theorem commandBody_streams {i : Instr} {s t : State} (h : commandBody i s = .ok t) :
    (t.encOut = s.encOut ∨ ∃ b, i = .encBit b ∧ t.encOut = s.encOut ++ s.output s.es b) ∧
    (t.decOut = s.decOut ∨ (i = .decTrace ∧ ∃ bits, t.decOut = s.decOut ++ bits)) := by
  have hok := commandBody_ok h
  cases i with
  | encBit b => obtain rfl : t = _ := hok; exact ⟨.inr ⟨b, rfl, rfl⟩, .inl rfl⟩
  | decTrace => rcases hok with ⟨-, rfl⟩ | ⟨-, -, rfl⟩ <;> exact ⟨.inl rfl, .inr ⟨rfl, _, rfl⟩⟩
  | cfgBegin k => obtain ⟨-, -, rfl⟩ := hok; exact ⟨.inl rfl, .inl rfl⟩
  | cfgPoly p => obtain ⟨-, -, -, rfl⟩ := hok; exact ⟨.inl rfl, .inl rfl⟩
  | cfgCommit => obtain ⟨-, rfl⟩ := hok; exact ⟨.inl rfl, .inl rfl⟩
  | cfgNpar => obtain rfl : t = _ := hok; exact ⟨.inl rfl, .inl rfl⟩
  | encStart => obtain rfl : t = _ := hok; exact ⟨.inl rfl, .inl rfl⟩
  | decStart => obtain rfl : t = _ := hok; exact ⟨.inl rfl, .inl rfl⟩
  | decBit b => rcases hok with ⟨-, rfl⟩ | ⟨-, -, rfl⟩ <;> exact ⟨.inl rfl, .inl rfl⟩
  | decFlush => rcases hok with ⟨-, rfl⟩ | ⟨-, -, rfl⟩ <;> exact ⟨.inl rfl, .inl rfl⟩

/-- A command writes a stream only where its pseudocode does: what is ignored or faults writes none (R176). -/
theorem exec_streams {i : Instr} {s t : State} (h : exec i s = .next t) :
    (t.encOut = s.encOut ∨ ∃ b, i = .encBit b ∧ t.encOut = s.encOut ++ s.output s.es b) ∧
    (t.decOut = s.decOut ∨ (i = .decTrace ∧ ∃ bits, t.decOut = s.decOut ++ bits)) := by
  rcases exec_cases h with ⟨-, rfl⟩ | ⟨-, -, rfl⟩ | ⟨-, -, hb⟩ | ⟨-, -, c, -, rfl⟩
  · exact ⟨.inl rfl, .inl rfl⟩
  · exact ⟨.inl rfl, .inl rfl⟩
  · exact commandBody_streams hb
  · exact ⟨.inl rfl, .inl rfl⟩

/-- Settles O45: each stream is as before, or the one command that writes it has appended to it. -/
theorem streamsOnlyGrow : Obligations.StreamsOnlyGrow := by
  unfold Obligations.StreamsOnlyGrow
  intro i s t h
  obtain ⟨henc, hdec⟩ := exec_streams h
  refine ⟨?encPrefix, ?decPrefix, fun hi => ?encSame, fun hi => ?decSame⟩
  case encPrefix =>
    rcases henc with hsame | ⟨b, -, happ⟩
    · rw [hsame]
    · rw [happ]; exact List.prefix_append _ _
  case decPrefix =>
    rcases hdec with hsame | ⟨-, bits, happ⟩
    · rw [hsame]
    · rw [happ]; exact List.prefix_append _ _
  case encSame => exact henc.resolve_right fun ⟨b, hb, _⟩ => hi b hb
  case decSame => exact hdec.resolve_right fun ⟨hb, _⟩ => hi hb

end Sys2Proof.Machine
end

section
/-! PROOFS. Family 10_state: what the invariant says of the `READY` states of runs (R36, R39). -/

namespace Sys2Proof.Machine

/-! ### Trellis entries (R36) -/

/-- A predecessor is its target's low bits shifted up, with its own least significant bit below them (R36, R121). -/
theorem predecessor_eq_or_mod_two {k t e : Nat} (h : e = pred0 k t ∨ e = pred1 k t) :
    e = ((t &&& stateMask k) <<< 1) ||| (e % 2) := by
  rcases h with rfl | rfl
  · have heven : pred0 k t % 2 = 0 := by rw [pred0_eq]; omega
    rw [heven]; rfl
  · have hodd : pred1 k t % 2 = 1 := by rw [pred1_eq]; omega
    rw [hodd]; rfl

theorem predecessor_lt {k t e : Nat} (hk : 2 ≤ k) (h : e = pred0 k t ∨ e = pred1 k t) : e < numStates k := by
  rcases h with rfl | rfl
  · exact pred0_lt hk
  · exact pred1_lt hk

/-- An index within a list reads the same element with and without a default. -/
theorem getElem?_eq_some_getD_of_lt {α : Type} {l : List α} {i : Nat} (h : i < l.length) (d : α) :
    l[i]? = some (l.getD i d) := by
  rw [List.getD_eq_getElem _ d h, List.getElem?_eq_getElem h]

/-- Settles O38: every column of a `READY` state has the shape the invariant gives it. -/
theorem trellisEntriesArePredecessors : Obligations.TrellisEntriesArePredecessors := by
  unfold Obligations.TrellisEntriesArePredecessors
  intro s hs hm c hc t ht
  have hinv := invariant_of_reachable hs
  have hk := (hinv.registers_ok (.inr hm)).k_ge
  have hmem : s.tr.getD c [] ∈ s.tr := by
    rw [List.getD_eq_getElem _ _ hc]; exact List.getElem_mem hc
  obtain ⟨hlen, hentry⟩ := (hinv.ready_ok hm).tr_column _ hmem
  exact ⟨_, getElem?_eq_some_getD_of_lt (hlen.symm ▸ ht) 0, hentry t ht, predecessor_lt hk (hentry t ht),
    predecessor_eq_or_mod_two (hentry t ht)⟩

/-! ### Metrics across a trellis step (R131, R39 item 7) -/

/-- No new metric is below the old metric of the predecessor it was taken from. -/
theorem stepColumn_metric_ge {k : Nat} (hk : 2 ≤ k) (output : Nat → Bit → List Bit) (pm : List Metric) (grp : List Bit)
    {x : Nat} (hx : x < numStates k) :
    ∃ y < numStates k, leInf (metricAt pm y) (metricAt ((stepColumn k output pm grp).map Prod.fst) x) = true := by
  obtain ⟨hpred, hcand, -, -⟩ := selectPredecessor_spec k output pm grp x
  refine ⟨_, predecessor_lt hk hpred, ?_⟩
  rw [metricAt_stepColumn hx, hcand]
  exact leInf_addInf _ _

/-- A command that adds a column to the trellis has run a trellis step on the metrics it found. -/
theorem commandBody_pm_of_newColumn {i : Instr} {s t : State} (h : commandBody i s = .ok t)
    (hgrow : t.tr.length = s.tr.length + 1) : ∃ grp, t.pm = (stepColumn s.k s.output s.pm grp).map Prod.fst := by
  have hok := commandBody_ok h
  cases i with
  | decBit b =>
    rcases hok with ⟨-, rfl⟩ | ⟨-, -, rfl⟩
    · simp at hgrow
    · exact ⟨_, rfl⟩
  | decFlush =>
    rcases hok with ⟨-, rfl⟩ | ⟨-, -, rfl⟩
    · simp at hgrow
    · exact ⟨_, rfl⟩
  | decTrace => rcases hok with ⟨-, rfl⟩ | ⟨-, -, rfl⟩ <;> simp at hgrow
  | cfgBegin k => obtain ⟨-, -, rfl⟩ := hok; simp at hgrow
  | cfgPoly p => obtain ⟨-, -, -, rfl⟩ := hok; simp at hgrow
  | cfgCommit => obtain ⟨-, rfl⟩ := hok; simp at hgrow
  | cfgNpar => obtain rfl : t = _ := hok; simp at hgrow
  | encStart => obtain rfl : t = _ := hok; simp at hgrow
  | encBit b => obtain rfl : t = _ := hok; simp at hgrow
  | decStart => obtain rfl : t = _ := hok; simp at hgrow

/-- A step that adds a column to the trellis is a command that has run a trellis step on the metrics it found. -/
theorem step_pm_of_newColumn {s t : State} (h : step s = .next t) (hgrow : t.tr.length = s.tr.length + 1) :
    ∃ grp, t.pm = (stepColumn s.k s.output s.pm grp).map Prod.fst := by
  rcases step_cases h with ⟨-, rfl⟩ | ⟨later, -, rfl⟩ | ⟨later, -, rfl⟩ | ⟨w, later, e, -, -, hw⟩ | ⟨w, later, i, -, -, he⟩
  · simp at hgrow
  · simp at hgrow
  · simp at hgrow
  · rcases runIllegal_cases hw with ⟨-, rfl⟩ | ⟨-, rfl⟩ <;> simp at hgrow
  · rcases exec_cases he with ⟨-, rfl⟩ | ⟨-, -, rfl⟩ | ⟨-, -, hb⟩ | ⟨-, -, c, -, rfl⟩
    · simp at hgrow
    · simp at hgrow
    · have hpm := commandBody_pm_of_newColumn hb hgrow
      exact hpm
    · simp at hgrow

/-! ### The seven items (R39) -/

/-- R39 item 1, element by element. -/
theorem ConfigRegistersOk.poly_range {s : State} (h : ConfigRegistersOk s) {j : Nat} (hj : j < s.n) :
    1 ≤ s.g.getD j 0 ∧ s.g.getD j 0 < 2 ^ s.k := by
  have hn : s.n ≠ 0 := by omega
  have hlen : j < s.g.length := (h.g_length hn).symm ▸ hj
  rw [List.getD_eq_getElem _ _ hlen]
  exact h.g_range _ (by rw [h.polys_eq hn]; exact List.getElem_mem hlen)

/-- R39 item 2: `OUT` is the table of `G`. -/
theorem ReadyOk.out_get {s : State} (h : ReadyOk s) {i j : Nat} (hi : i < 2 ^ s.k) (hj : j < s.n) :
    (s.out.getD i [])[j]? = some (parity (revK s.k (s.g.getD j 0) &&& i)) := by
  rw [getElem?_eq_some_getD_of_lt ((h.out_width i hi).symm ▸ hj) false, h.out_entry i hi j hj]

/-- R39 item 6: state 0 is reached at every time (R130). -/
theorem ReadyOk.metric_zero_finite {s : State} (h : ReadyOk s) : metricAt s.pm 0 ≠ .inf :=
  (h.pm_finite 0 (Nat.two_pow_pos _)).2 (reachedIn_zero_state _ _)

/-- Settles O43: items 1 to 6 are read off the invariant, item 7 from the trellis step of the command taken. -/
theorem readyStatesOfRuns : Obligations.ReadyStatesOfRuns := by
  unfold Obligations.ReadyStatesOfRuns
  intro s hs hm
  have hinv := invariant_of_reachable hs
  have hregs := hinv.registers_ok (.inr hm)
  have hready := hinv.ready_ok hm
  have hn : s.n ≠ 0 := Nat.one_le_iff_ne_zero.1 hready.n_pos
  refine ⟨⟨hregs.k_ge, hregs.k_le, hready.n_pos, hregs.n_le, hregs.g_length hn, fun j => hregs.poly_range⟩,
    fun i hi j => hready.out_get hi, hready.es_lt, hready.gb_lt, ⟨hready.tr_le, hready.tr_column⟩,
    ⟨hready.pm_length, 0, Nat.two_pow_pos _, hready.metric_zero_finite⟩, fun t ht hgrow x hx => ?metrics⟩
  case metrics =>
    obtain ⟨grp, hpm⟩ := step_pm_of_newColumn ht hgrow
    rw [hpm]
    exact stepColumn_metric_ge hregs.k_ge s.output s.pm grp hx

end Sys2Proof.Machine
end

section
/-! PROOFS. Family 20_memory: the host's moves in the order issued, and the moves that change nothing (R59, R61, R203). -/

namespace Sys2Proof.Machine

/-- Settles O11: a read is a move whose only effect is that it is taken, and a step without a move takes none. -/
theorem readingAndIdlingChangeNothing : Obligations.ReadingAndIdlingChangeNothing := by
  unfold Obligations.ReadingAndIdlingChangeNothing
  exact ⟨fun s later hp => step_move hp, fun s hp => step_idle hp⟩

/-- A step takes the first of the moves issued, if there is one, and no other. -/
theorem step_pending {s t : State} (h : step s = .next t) : t.pending = s.pending.tail := by
  cases hp : s.pending with
  | nil =>
    rw [step_idle hp, Host.Outcome.next.injEq] at h
    rw [← h, hp, List.tail_nil]
  | cons move later =>
    rw [step_move hp] at h
    exact runMove_pending h

/-- A run of `count` steps takes the first `count` of the moves issued. -/
theorem runSteps_pending {count : Nat} {s t : State} (h : runSteps count s = .next t) :
    t.pending = s.pending.drop count := by
  induction count generalizing s with
  | zero =>
    rw [runSteps, Host.Outcome.next.injEq] at h
    rw [← h, List.drop_zero]
  | succ count ih =>
    obtain ⟨u, hu⟩ := step_isNext s
    simp only [runSteps, hu] at h
    rw [ih h, step_pending hu, List.drop_tail]

/-- A step that takes a move does not look at moves issued after it. -/
theorem step_issue {s t : State} (hne : s.pending ≠ []) (h : step s = .next t) (moves : List HostMove) :
    step (s.issue moves) = .next (t.issue moves) := by
  cases hp : s.pending with
  | nil => exact absurd hp hne
  | cons move later =>
    have hq : (s.issue moves).pending = move :: (later ++ moves) := by rw [issue_pending, hp, List.cons_append]
    rw [step_move hp] at h
    calc step (s.issue moves)
        = runMove move { s with pending := later ++ moves } := step_move hq
      _ = .next { t with pending := later ++ moves } := runMove_setPending h _
      _ = .next (t.issue moves) := by rw [State.issue, runMove_pending h]

/-- A run over moves already issued does not look at moves issued after them. -/
theorem runSteps_issue {count : Nat} {s t : State} (hle : count ≤ s.pending.length) (h : runSteps count s = .next t)
    (moves : List HostMove) : runSteps count (s.issue moves) = .next (t.issue moves) := by
  induction count generalizing s with
  | zero =>
    rw [runSteps, Host.Outcome.next.injEq] at h
    rw [runSteps, h]
  | succ count ih =>
    obtain ⟨u, hu⟩ := step_isNext s
    have hne : s.pending ≠ [] := List.ne_nil_of_length_pos (by omega)
    have hlen : count ≤ u.pending.length := by rw [step_pending hu, List.length_tail]; omega
    simp only [runSteps, hu] at h
    simp only [runSteps, step_issue hne hu moves]
    exact ih hlen h

theorem issue_append (s : State) (first second : List HostMove) :
    s.issue (first ++ second) = (s.issue first).issue second := by
  simp [State.issue]

theorem runMoves_eq (moves : List HostMove) (s : State) :
    runMoves moves s = runSteps (s.issue moves).pending.length (s.issue moves) := by
  rw [runMoves, issue_pending, List.length_append]

/-- Settles O13: the first run does not look at the second sequence, and ends when all its own moves are taken. -/
theorem movesTakeEffectInOrder : Obligations.MovesTakeEffectInOrder := by
  unfold Obligations.MovesTakeEffectInOrder
  intro s t first second h
  rw [runMoves_eq] at h
  have htaken : t.pending = [] := by rw [runSteps_pending h, List.drop_length]
  have hfirst := runSteps_issue le_rfl h second
  calc runMoves (first ++ second) s
      = runSteps ((s.issue first).pending.length + second.length) ((s.issue first).issue second) := by
        rw [runMoves_eq, issue_append, issue_pending (s := s.issue first), List.length_append]
    _ = runSteps second.length (t.issue second) := runSteps_add hfirst _
    _ = runMoves second t := by rw [runMoves_eq, issue_pending, htaken, List.nil_append]

end Sys2Proof.Machine
end

section
/-! PROOFS. Family 20_memory: the encoder's state is the history of its input, the newest bit on top (R52, R53). -/

namespace Sys2Proof.Machine

/-! ### Bits of the next state and of the combined index (R52, R92) -/

@[simp] theorem decide_toNat_mod_two (b : Bit) : decide (b.toNat % 2 = 1) = b := by cases b <;> rfl

/-- Every bit but the top one moves one place down (R92). -/
theorem testBit_nextState_of_lt {k j : Nat} (state : Nat) (b : Bit) (hj : j < k - 2) :
    (nextState k state b).testBit j = state.testBit (j + 1) := by
  have hlow : ¬ k - 2 ≤ j := by omega
  simp [nextState, Nat.testBit_or, Nat.testBit_shiftRight, Nat.testBit_shiftLeft, hlow, Nat.add_comm 1 j]

/-- The bit consumed enters at bit `K-2` (R92). -/
theorem testBit_nextState_top {k state : Nat} (b : Bit) (hk : 2 ≤ k) (h : state < numStates k) :
    (nextState k state b).testBit (k - 2) = b := by
  have hclear : state.testBit (1 + (k - 2)) = false := by
    rw [show 1 + (k - 2) = k - 1 by omega]; exact Nat.testBit_lt_two_pow h
  simp [nextState, Nat.testBit_or, Nat.testBit_shiftRight, Nat.testBit_shiftLeft, hclear]

/-- The state stands in the low bits of the combined index (R52). -/
theorem testBit_combinedIndex_of_lt {k j : Nat} (state : Nat) (b : Bit) (hj : j < k - 1) :
    (combinedIndex k state b).testBit j = state.testBit j := by
  have hlow : ¬ k - 1 ≤ j := by omega
  simp [combinedIndex, Nat.testBit_or, Nat.testBit_shiftLeft, hlow]

/-- The input stands in bit `K-1` of the combined index (R52). -/
theorem testBit_combinedIndex_top {k state : Nat} (b : Bit) (h : state < numStates k) :
    (combinedIndex k state b).testBit (k - 1) = b := by
  have hclear : state.testBit (k - 1) = false := Nat.testBit_lt_two_pow h
  simp [combinedIndex, Nat.testBit_or, Nat.testBit_shiftLeft, hclear]

/-! ### The state after an input (R53) -/

@[simp] theorem stateAfter_nil (c : Codec) : c.stateAfter [] = 0 := rfl

@[simp] theorem stateAfter_concat (c : Codec) (u : List Bit) (b : Bit) :
    c.stateAfter (u ++ [b]) = nextState c.k (c.stateAfter u) b := by
  simp [Codec.stateAfter]

theorem stateAfter_lt (c : Codec) (hk : 2 ≤ c.k) (u : List Bit) : c.stateAfter u < numStates c.k := by
  induction u using List.reverseRecOn with
  | nil => exact numStates_pos c.k
  | append_singleton u b ih => rw [stateAfter_concat]; exact nextState_lt b hk ih

/-- The input `d` steps back from the end of `u`, 0 before the first one: `u[n-d]` of R53. -/
def inputAgo (u : List Bit) (d : Nat) : Bit := decide (d ≤ u.length) && u.getD (u.length - d) false

theorem inputAgo_nil {d : Nat} (hd : 1 ≤ d) : inputAgo [] d = false := by
  have : ¬ d ≤ 0 := by omega
  simp [inputAgo, this]

theorem inputAgo_concat_one (u : List Bit) (b : Bit) : inputAgo (u ++ [b]) 1 = b := by
  simp [inputAgo]

theorem inputAgo_concat_succ (u : List Bit) (b : Bit) {d : Nat} (hd : 1 ≤ d) :
    inputAgo (u ++ [b]) (d + 1) = inputAgo u d := by
  have hindex : (u ++ [b]).length - (d + 1) = u.length - d := by simp
  rw [inputAgo, inputAgo, hindex]
  by_cases hle : d ≤ u.length
  · rw [List.getD_append _ _ _ _ (by omega : u.length - d < u.length)]
    simp [hle]
  · simp [hle]

/-- Bit `K-1-d` of the state is the input `d` steps back (R53). -/
theorem testBit_stateAfter (c : Codec) (hk : 2 ≤ c.k) (u : List Bit) {d : Nat} (hd : 1 ≤ d) (hdk : d ≤ c.k - 1) :
    (c.stateAfter u).testBit (c.k - 1 - d) = inputAgo u d := by
  induction u using List.reverseRecOn generalizing d with
  | nil => rw [stateAfter_nil, Nat.zero_testBit, inputAgo_nil hd]
  | append_singleton u b ih =>
    rw [stateAfter_concat]
    rcases Nat.eq_or_lt_of_le hd with rfl | hlater
    · rw [Nat.sub_sub, testBit_nextState_top b hk (stateAfter_lt c hk u), inputAgo_concat_one]
    · obtain ⟨e, rfl⟩ : ∃ e, d = e + 1 := ⟨d - 1, by omega⟩
      rw [testBit_nextState_of_lt _ b (by omega), inputAgo_concat_succ u b (by omega),
        show c.k - 1 - (e + 1) + 1 = c.k - 1 - e by omega]
      exact ih (by omega) (by omega)

/-- Settles O30, by induction on the input from its end: each bit consumed enters at the top and moves the others down. -/
theorem stateHoldsInputHistory : Obligations.StateHoldsInputHistory := by
  unfold Obligations.StateHoldsInputHistory
  intro c u b d hk hd hdk
  have hpast := testBit_stateAfter c hk u hd hdk
  refine ⟨hpast, ?_, testBit_combinedIndex_top b (stateAfter_lt c hk u)⟩
  rw [testBit_combinedIndex_of_lt _ b (by omega)]
  exact hpast

end Sys2Proof.Machine
end

section
/-! PROOFS. Family 20_memory: the encoder and the decoder share nothing but the configuration (R65). A run is compared with the run
of its ENC (or DEC) commands alone, command by command: the two states differ in the other unit's registers only. -/

namespace Sys2Proof.Machine

/-! ### Runs of commands in `READY` -/

/-- The word of a command of `READY` decodes to it (R71, R73, R74). -/
theorem decode_encode_of_ready {i : Instr} (hi : i.acceptedIn = .ready) : decode (encode i) = .command i := by
  cases i with
  | cfgBegin k => nomatch hi
  | cfgPoly p => nomatch hi
  | cfgCommit => nomatch hi
  | encBit b => cases b <;> rfl
  | decBit b => cases b <;> rfl
  | cfgNpar => rfl
  | encStart => rfl
  | decStart => rfl
  | decFlush => rfl
  | decTrace => rfl

/-- A block in `READY` that has taken all moves issued. -/
structure AwaitsCommand (s : State) : Prop where
  ready : s.mode = .ready
  idle : s.pending = []

/-- A command of `READY` that raises no fault leaves the block in `READY` (R20). -/
theorem awaitsCommand_of_readyBody {i : Instr} {s t : State} (hs : AwaitsCommand s) (hi : i.acceptedIn = .ready)
    (hb : commandBody i s = .ok t) : AwaitsCommand t := by
  obtain ⟨_, _, _, _, _, _, _, -, rfl⟩ := readyBody_frame hi hb
  exact ⟨hs.ready, hs.idle⟩

/-- The run of a sequence whose first command passes its checks goes on from what that command leaves. -/
theorem runCommands_cons_of_ok {i : Instr} {s u : State} (rest : List Instr) (hs : AwaitsCommand s)
    (hi : i.acceptedIn = .ready) (hb : commandBody i s = .ok u) : runCommands (i :: rest) s = runCommands rest u := by
  refine runCommands_cons rest hs.idle (decode_encode_of_ready hi) ?_
  rw [exec_eq_runCommand]
  exact runCommand_ok (hs.ready.trans hi.symm) hb

/-- A run from `FAILED` without a reset ends there (R179). -/
theorem runCommands_failed {commands : List Instr} {s t : State} (hf : s.mode = .failed) (hp : s.pending = [])
    (hc : ∀ i ∈ commands, i.acceptedIn = .ready) (h : runCommands commands s = .next t) : t.mode = .failed := by
  induction commands with
  | nil =>
    rw [runCommands_nil hp, Host.Outcome.next.injEq] at h
    rw [← h, hf]
  | cons i rest ih =>
    obtain ⟨hi, hrest⟩ := List.forall_mem_cons.1 hc
    have hexec : exec i s = .next s := by rw [exec_eq_runCommand]; exact runCommand_failed hf
    rw [runCommands_cons rest hp (decode_encode_of_ready hi) hexec] at h
    exact ih hrest h

/-- When a run ends in `READY`, its first command has passed its checks: a fault would have lasted to the end. -/
theorem commandBody_ok_of_run_ready {i : Instr} {rest : List Instr} {s t : State} (hs : AwaitsCommand s)
    (hi : i.acceptedIn = .ready) (hrest : ∀ j ∈ rest, j.acceptedIn = .ready)
    (h : runCommands (i :: rest) s = .next t) (ht : t.mode = .ready) : ∃ u, commandBody i s = .ok u := by
  cases hb : commandBody i s with
  | ok u => exact ⟨u, rfl⟩
  | error c =>
    have hexec : exec i s = .next (raise c (encode i) s) := by
      rw [exec_eq_runCommand]; exact runCommand_error (hs.ready.trans hi.symm) hb
    rw [runCommands_cons rest hs.idle (decode_encode_of_ready hi) hexec] at h
    have hfailed := runCommands_failed (raise_mode _ _ _) hs.idle hrest h
    exact nomatch ht.symm.trans hfailed

/-! ### The run of a part of the commands -/

/-- `R` relates the state of the run of the commands chosen by `keep` to the state of the whole run: a command that is not chosen
leaves the states related, and a chosen one passes its checks in both and relates what it leaves. -/
structure FollowsKept (keep : Instr → Bool) (R : State → State → Prop) : Prop where
  skipped : ∀ {i a s u}, i.acceptedIn = .ready → keep i = false → commandBody i s = .ok u → R a s → R a u
  kept : ∀ {i a s u}, keep i = true → commandBody i s = .ok u → R a s → ∃ v, commandBody i a = .ok v ∧ R v u

/-- The run of the chosen commands follows the whole run to its end. -/
theorem FollowsKept.runCommands_filter {keep : Instr → Bool} {R : State → State → Prop} (hR : FollowsKept keep R)
    {commands : List Instr} {a s t : State} (hrel : R a s) (ha : AwaitsCommand a) (hs : AwaitsCommand s)
    (hc : ∀ i ∈ commands, i.acceptedIn = .ready) (h : runCommands commands s = .next t) (ht : t.mode = .ready) :
    ∃ e, runCommands (commands.filter keep) a = .next e ∧ R e t := by
  induction commands generalizing a s with
  | nil =>
    rw [runCommands_nil hs.idle, Host.Outcome.next.injEq] at h
    exact ⟨a, runCommands_nil ha.idle, h ▸ hrel⟩
  | cons i rest ih =>
    obtain ⟨hi, hrest⟩ := List.forall_mem_cons.1 hc
    obtain ⟨u, hu⟩ := commandBody_ok_of_run_ready hs hi hrest h ht
    have hsu := awaitsCommand_of_readyBody hs hi hu
    rw [runCommands_cons_of_ok rest hs hi hu] at h
    cases hkeep : keep i with
    | false =>
      rw [List.filter_cons_of_neg (by simp [hkeep])]
      exact ih (hR.skipped hi hkeep hu hrel) ha hsu hrest h
    | true =>
      obtain ⟨v, hv, hvu⟩ := hR.kept hkeep hu hrel
      rw [List.filter_cons_of_pos hkeep, runCommands_cons_of_ok _ ha hi hv]
      exact ih hvu (awaitsCommand_of_readyBody ha hi hv) hsu hrest h

/-! ### The encoder's commands -/

/-- `s` with other values of `RES` and of the decoder context. -/
def State.withDecoder (res : Nat) (gb : List Bit) (pm : List Metric) (tr : List (List Nat)) (decOut : List Bit) (s : State) :
    State :=
  { s with res := res, gb := gb, pm := pm, tr := tr, decOut := decOut }

/-- `a` is `s` but for `RES` and the decoder context. -/
def SameButDecoder (a s : State) : Prop := ∃ res gb pm tr decOut, a = s.withDecoder res gb pm tr decOut

theorem SameButDecoder.refl (s : State) : SameButDecoder s s := ⟨s.res, s.gb, s.pm, s.tr, s.decOut, rfl⟩

/-- The encoder's commands neither read nor write the decoder context, and the other commands of `READY` write nothing but it
and `RES`. -/
theorem followsKept_encoder : FollowsKept isEncCommand SameButDecoder where
  skipped := by
    rintro i _ s u hi hk hb ⟨res, gb, pm, tr, decOut, rfl⟩
    have hok := commandBody_ok hb
    refine ⟨res, gb, pm, tr, decOut, ?_⟩
    cases i with
    | cfgBegin k => nomatch hi
    | cfgPoly p => nomatch hi
    | cfgCommit => nomatch hi
    | encStart => nomatch hk
    | encBit b => nomatch hk
    | cfgNpar => obtain rfl : u = _ := hok; rfl
    | decStart => obtain rfl : u = _ := hok; rfl
    | decBit b => rcases hok with ⟨-, rfl⟩ | ⟨-, -, rfl⟩ <;> rfl
    | decFlush => rcases hok with ⟨-, rfl⟩ | ⟨-, -, rfl⟩ <;> rfl
    | decTrace => rcases hok with ⟨-, rfl⟩ | ⟨-, -, rfl⟩ <;> rfl
  kept := by
    rintro i _ s u hk hb ⟨res, gb, pm, tr, decOut, rfl⟩
    have hok := commandBody_ok hb
    refine ⟨u.withDecoder res gb pm tr decOut, ?_, res, gb, pm, tr, decOut, rfl⟩
    cases i with
    | encStart => obtain rfl : u = _ := hok; rfl
    | encBit b => obtain rfl : u = _ := hok; rfl
    | _ => nomatch hk

/-! ### The decoder's commands -/

/-- `s` with other values of `RES` and of the encoder context. -/
def State.withEncoder (res es : Nat) (encOut : List Bit) (s : State) : State :=
  { s with res := res, es := es, encOut := encOut }

/-- `a` is `s` but for `RES` and the encoder context. -/
def SameButEncoder (a s : State) : Prop := ∃ res es encOut, a = s.withEncoder res es encOut

theorem SameButEncoder.refl (s : State) : SameButEncoder s s := ⟨s.res, s.es, s.encOut, rfl⟩

theorem flushGroup_withEncoder {s u : State} (h : flushGroup s = .ok u) (res es : Nat) (encOut : List Bit) :
    flushGroup (s.withEncoder res es encOut) = .ok (u.withEncoder res es encOut) := by
  rcases flushGroup_ok.1 h with ⟨hgb, rfl⟩ | ⟨hgb, hroom, rfl⟩
  · exact flushGroup_ok.2 (.inl ⟨hgb, rfl⟩)
  · exact flushGroup_ok.2 (.inr ⟨hgb, hroom, rfl⟩)

/-- The decoder's commands neither read nor write the encoder context, and the other commands of `READY` write nothing but it
and `RES`. -/
theorem followsKept_decoder : FollowsKept isDecCommand SameButEncoder where
  skipped := by
    rintro i _ s u hi hk hb ⟨res, es, encOut, rfl⟩
    have hok := commandBody_ok hb
    refine ⟨res, es, encOut, ?_⟩
    cases i with
    | cfgNpar => obtain rfl : u = _ := hok; rfl
    | encStart => obtain rfl : u = _ := hok; rfl
    | encBit b => obtain rfl : u = _ := hok; rfl
    | cfgBegin k => nomatch hi
    | cfgPoly p => nomatch hi
    | cfgCommit => nomatch hi
    | _ => nomatch hk
  kept := by
    rintro i _ s u hk hb ⟨res, es, encOut, rfl⟩
    refine ⟨u.withEncoder res es encOut, ?_, res, es, encOut, rfl⟩
    cases i with
    | decStart => obtain rfl : u = _ := commandBody_ok hb; rfl
    | decBit b =>
      rcases receiveBit_ok.1 hb with ⟨hshort, rfl⟩ | ⟨hfull, hroom, rfl⟩
      · exact receiveBit_ok.2 (.inl ⟨hshort, rfl⟩)
      · exact receiveBit_ok.2 (.inr ⟨hfull, hroom, rfl⟩)
    | decFlush => exact flushGroup_withEncoder hb res es encOut
    | decTrace =>
      obtain ⟨v, hv, rfl⟩ := endDecode_ok.1 hb
      exact endDecode_ok.2 ⟨_, flushGroup_withEncoder hv res es encOut, rfl⟩
    | _ => nomatch hk

/-- Settles O46: the run of either unit's commands follows the whole run, and ends in a state that differs from its end in `RES` and
the other unit's context only. -/
theorem encoderAndDecoderAreIndependent : Obligations.EncoderAndDecoderAreIndependent := by
  unfold Obligations.EncoderAndDecoderAreIndependent
  intro s t commands hm hp hc h ht
  have hs : AwaitsCommand s := ⟨hm, hp⟩
  constructor
  · obtain ⟨e, he, _, _, _, _, _, rfl⟩ :=
      followsKept_encoder.runCommands_filter (.refl s) hs hs hc h ht
    exact ⟨_, he, rfl, rfl⟩
  · obtain ⟨d, hd, _, _, _, rfl⟩ := followsKept_decoder.runCommands_filter (.refl s) hs hs hc h ht
    exact ⟨_, hd, rfl, rfl, rfl, rfl⟩

end Sys2Proof.Machine
end

section
/-! PROOFS. Family 30_encoding: decoding and encoding are inverse to each other on the well-formed commands, and which words spell a
command (R71 to R75). -/

namespace Sys2Proof.Machine

/-! ### Decoding an encoding (R71 to R74) -/

/-- A number that fits the field is the operand decoded from it (R71). -/
theorem decodeNumber_ofNat {n : Nat} (h : n < 2 ^ 24) (mk : Nat → Instr) :
    decodeNumber (BitVec.ofNat 24 n) mk = .command (mk n) := by
  rw [decodeNumber, BitVec.toNat_ofNat, Nat.mod_eq_of_lt h]

theorem decode_encode_cfgBegin (k : Nat) : decode (encode (.cfgBegin k)) = decodeNumber (BitVec.ofNat 24 k) .cfgBegin := by
  rw [encode, decode, opField_mkWord, argField_mkWord]; rfl

theorem decode_encode_cfgPoly (p : Nat) : decode (encode (.cfgPoly p)) = decodeNumber (BitVec.ofNat 24 p) .cfgPoly := by
  rw [encode, decode, opField_mkWord, argField_mkWord]; rfl

/-- Settles O3, command by command: only the numeric operands can fail to fit the field, and well-formed ones fit. -/
theorem decodeOfEncode : Obligations.DecodeOfEncode := by
  unfold Obligations.DecodeOfEncode
  intro i hi
  cases i with
  | cfgBegin k => rw [decode_encode_cfgBegin, decodeNumber_ofNat (of_decide_eq_true hi)]
  | cfgPoly p => rw [decode_encode_cfgPoly, decodeNumber_ofNat (of_decide_eq_true hi)]
  | cfgCommit => rfl
  | _ => exact decode_encode_of_ready rfl

/-! ### Encoding what was decoded (R71 to R74) -/

/-- The word is the encoding of the command, and the command's operand fits it. -/
def SpelledBy (w : Word) (i : Instr) : Prop := i.wellFormed = true ∧ encode i = w

theorem encode_eq_of_fields {w : Word} {i : Instr} (hop : opField w = i.opCode) (harg : argField w = i.arg) :
    encode i = w := by
  rw [encode, ← hop, ← harg, mkWord_fields]

/-- Operand form "none": the `arg` of a legal word is 0 (R72). -/
theorem spelledBy_of_decodeNone {w : Word} {i j : Instr} (h : decodeNone (argField w) i = .command j)
    (hop : opField w = i.opCode) (hi : i.wellFormed = true) (harg : i.arg = 0) : SpelledBy w j := by
  unfold decodeNone at h
  split at h
  · next hzero =>
    obtain rfl := Decoded.command.inj h
    exact ⟨hi, encode_eq_of_fields hop (hzero.trans harg.symm)⟩
  · nomatch h

/-- An operand field of at most 1 is the bit it holds (R72). -/
theorem ofNat_toNat_of_le_one {arg : Arg} (h : arg.toNat ≤ 1) : BitVec.ofNat 24 (arg.getLsbD 0).toNat = arg := by
  obtain h0 | h1 : arg = 0#24 ∨ arg = 1#24 := by bv_omega
  · subst h0; rfl
  · subst h1; rfl

/-- Operand form "bit": the `arg` of a legal word is the bit (R72). -/
theorem spelledBy_of_decodeBit {w : Word} {mk : Bit → Instr} {j : Instr} (h : decodeBit (argField w) mk = .command j)
    (hop : ∀ b, opField w = (mk b).opCode) (hmk : ∀ b, (mk b).wellFormed = true)
    (harg : ∀ b, (mk b).arg = BitVec.ofNat 24 b.toNat) : SpelledBy w j := by
  unfold decodeBit at h
  split at h
  · next hle =>
    obtain rfl := Decoded.command.inj h
    exact ⟨hmk _, encode_eq_of_fields (hop _) ((ofNat_toNat_of_le_one hle).symm.trans (harg _).symm)⟩
  · nomatch h

/-- An operand field is its own number (R71). -/
theorem ofNat_toNat_arg (arg : Arg) : BitVec.ofNat 24 arg.toNat = arg := by
  rw [BitVec.ofNat_toNat, BitVec.setWidth_eq]

/-- Operand forms "k" and "p": the `arg` of the word is the number, which fits it (R71, R72). -/
theorem spelledBy_of_decodeNumber {w : Word} {mk : Nat → Instr} {j : Instr} (h : decodeNumber (argField w) mk = .command j)
    (hop : ∀ n, opField w = (mk n).opCode) (hmk : ∀ n < 2 ^ 24, (mk n).wellFormed = true)
    (harg : ∀ n, (mk n).arg = BitVec.ofNat 24 n) : SpelledBy w j := by
  obtain rfl := Decoded.command.inj h
  exact ⟨hmk _ (argField w).isLt, encode_eq_of_fields (hop _) ((ofNat_toNat_arg _).symm.trans (harg _).symm)⟩

/-- Settles O4, by the ten `op` values of the decoder and the operand form of each. -/
theorem encodeOfDecode : Obligations.EncodeOfDecode := by
  unfold Obligations.EncodeOfDecode
  intro w i h
  change SpelledBy w i
  unfold decode at h
  split at h
  · next hop => exact spelledBy_of_decodeNumber h (fun _ => hop) (fun _ => decide_eq_true) (fun _ => rfl)
  · next hop => exact spelledBy_of_decodeNumber h (fun _ => hop) (fun _ => decide_eq_true) (fun _ => rfl)
  · next hop => exact spelledBy_of_decodeNone h hop rfl rfl
  · next hop => exact spelledBy_of_decodeNone h hop rfl rfl
  · next hop => exact spelledBy_of_decodeNone h hop rfl rfl
  · next hop => exact spelledBy_of_decodeBit h (fun _ => hop) (fun _ => rfl) (fun _ => rfl)
  · next hop => exact spelledBy_of_decodeNone h hop rfl rfl
  · next hop => exact spelledBy_of_decodeBit h (fun _ => hop) (fun _ => rfl) (fun _ => rfl)
  · next hop => exact spelledBy_of_decodeNone h hop rfl rfl
  · next hop => exact spelledBy_of_decodeNone h hop rfl rfl
  · nomatch h

/-! ### The words that spell a command, by their fields as numbers (R74) -/

/-- A word with the fields of a well-formed command spells it. -/
theorem decode_eq_command {w : Word} {i : Instr} (hi : i.wellFormed = true) (hop : w.toNat / 2 ^ 24 = i.opCode.toNat)
    (harg : w.toNat % 2 ^ 24 = i.arg.toNat) : decode w = .command i := by
  have hw : encode i = w := encode_eq_of_fields (BitVec.eq_of_toNat_eq (by rw [opField_toNat, hop]))
    (BitVec.eq_of_toNat_eq (by rw [argField_toNat, harg]))
  rw [← hw, decodeOfEncode i hi]

theorem fields_of_decode {w : Word} {i : Instr} (h : decode w = .command i) :
    w.toNat / 2 ^ 24 = i.opCode.toNat ∧ w.toNat % 2 ^ 24 = i.arg.toNat := by
  obtain ⟨-, rfl⟩ := encodeOfDecode w i h
  rw [← opField_toNat, ← argField_toNat, encode, opField_mkWord, argField_mkWord]
  exact ⟨rfl, rfl⟩

/-- A word is illegal when no command has its fields. -/
theorem illegal_of_no_command {w : Word}
    (h : ∀ i : Instr, w.toNat / 2 ^ 24 = i.opCode.toNat → w.toNat % 2 ^ 24 ≠ i.arg.toNat) :
    ∃ e, decode w = .illegal e := by
  cases hd : decode w with
  | illegal e => exact ⟨e, rfl⟩
  | command i =>
    obtain ⟨hop, harg⟩ := fields_of_decode hd
    exact absurd harg (h i hop)

/-- The `op` values of R73. -/
theorem opCode_mem (i : Instr) :
    i.opCode.toNat ∈ [0x01, 0x02, 0x03, 0x04, 0x10, 0x11, 0x20, 0x21, 0x22, 0x23] := by
  cases i <;> simp [Instr.opCode]

/-- The commands of the operand form "none" have the `arg` 0 (R72, R73). -/
theorem arg_of_form_none {i : Instr} (h : i.opCode.toNat ∈ [0x03, 0x04, 0x10, 0x20, 0x22, 0x23]) : i.arg.toNat = 0 := by
  cases i with
  | cfgBegin k => simp [Instr.opCode] at h
  | cfgPoly p => simp [Instr.opCode] at h
  | encBit b => simp [Instr.opCode] at h
  | decBit b => simp [Instr.opCode] at h
  | _ => rfl

/-- The commands of the operand form "bit" have an `arg` of at most 1 (R72, R73). -/
theorem arg_of_form_bit {i : Instr} (h : i.opCode.toNat ∈ [0x11, 0x21]) : i.arg.toNat ≤ 1 := by
  cases i with
  | encBit b => cases b <;> decide
  | decBit b => cases b <;> decide
  | _ => simp [Instr.opCode] at h

/-- The `arg` of a bit is read back as the bit (R72). -/
theorem eq_toNat_ofNat_decide {arg : Nat} (h : arg ≤ 1) :
    arg = (BitVec.ofNat 24 (decide (arg = 1)).toNat).toNat := by
  interval_cases arg <;> rfl

/-- The `arg` field holds its own value (R71). -/
theorem eq_toNat_ofNat_of_mod (n : Nat) : n % 2 ^ 24 = (BitVec.ofNat 24 (n % 2 ^ 24)).toNat := by
  rw [BitVec.toNat_ofNat, Nat.mod_mod]

theorem runWord_of_illegal {w : Word} {e : Illegal} {s : State} (h : decode w = .illegal e) (hs : s.mode ≠ .failed) :
    runWord w s = .next (raise .illegalCommand w s) := by
  rw [runWord, h]; exact if_neg hs

/-- Settles O2: an illegal word is one whose fields no command has, and a word with a command's fields spells it. -/
theorem decodingIsTotal : Obligations.DecodingIsTotal := by
  unfold Obligations.DecodingIsTotal
  intro w op arg
  have hfit : arg < 2 ^ 24 := Nat.mod_lt _ (by decide)
  refine ⟨fun hop => ?reserved, fun hop harg => ?argNotZero, fun hop harg => ?argNotBit, fun hop => ?cfgBegin,
    fun hop => ?cfgPoly, fun hop harg => decode_eq_command rfl hop harg, fun hop harg => decode_eq_command rfl hop harg,
    fun hop harg => decode_eq_command rfl hop harg, fun hop harg => ?encBit,
    fun hop harg => decode_eq_command rfl hop harg, fun hop harg => ?decBit,
    fun hop harg => decode_eq_command rfl hop harg, fun hop harg => decode_eq_command rfl hop harg,
    fun e he s hs => runWord_of_illegal he hs⟩
  case reserved => exact illegal_of_no_command fun i hi _ => absurd (opCode_mem i) (hi ▸ hop)
  case argNotZero => exact illegal_of_no_command fun i hi ha => harg (ha.trans (arg_of_form_none (hi ▸ hop)))
  case argNotBit =>
    exact illegal_of_no_command fun i hi ha => absurd (ha.trans_le (arg_of_form_bit (hi ▸ hop))) (Nat.not_le.2 harg)
  case cfgBegin => exact decode_eq_command (decide_eq_true hfit) hop (eq_toNat_ofNat_of_mod _)
  case cfgPoly => exact decode_eq_command (decide_eq_true hfit) hop (eq_toNat_ofNat_of_mod _)
  case encBit => exact decode_eq_command rfl hop (eq_toNat_ofNat_decide harg)
  case decBit => exact decode_eq_command rfl hop (eq_toNat_ofNat_decide harg)

/-- Settles O1: each word is evaluated. -/
theorem wordsOfTheOpcodeMapDecode : Obligations.WordsOfTheOpcodeMapDecode := by
  unfold Obligations.WordsOfTheOpcodeMapDecode
  decide

end Sys2Proof.Machine
end

section
/-! PROOFS. Family 30_encoding: a word matches a row of the opcode map when its fields are those of one of the row's commands
(R73). -/

namespace Sys2Proof.Machine

/-! ### Matching a row, field by field -/

/-- The fields of a masked word are the masked fields (R71). -/
theorem and_eq_iff_fields {w mask pattern : Word} :
    w &&& mask = pattern ↔
      opField w &&& opField mask = opField pattern ∧ argField w &&& argField mask = argField pattern := by
  have hop : opField (w &&& mask) = opField w &&& opField mask := BitVec.extractLsb'_and
  have harg : argField (w &&& mask) = argField w &&& argField mask := BitVec.extractLsb'_and
  rw [← hop, ← harg]
  constructor
  · rintro rfl; exact ⟨rfl, rfl⟩
  · rintro ⟨ho, ha⟩
    rw [← mkWord_fields (w &&& mask), ho, ha, mkWord_fields]

/-- Every row of the map compares the whole `op` and asks for zeros in the masked part of `arg` (R73). -/
theorem opTable_fields : ∀ r ∈ opTable, opField r.mask = BitVec.allOnes 8 ∧ argField r.pattern = 0#24 := by
  decide

theorem spells_iff {r : OpRow} (hr : r ∈ opTable) (w : Word) :
    r.spells w = true ↔ opField w = opField r.pattern ∧ argField w &&& argField r.mask = 0#24 := by
  obtain ⟨hmask, hpattern⟩ := opTable_fields r hr
  rw [OpRow.spells, decide_eq_true_iff, and_eq_iff_fields, hmask, hpattern, BitVec.and_allOnes]

/-! ### From a row to its commands -/

/-- A bit command's mask leaves bit 0 open (R73). -/
theorem ofNat_toNat_of_and_bitMask {arg : Arg} (h : arg &&& 0xFFFFFE#24 = 0#24) :
    BitVec.ofNat 24 (arg.getLsbD 0).toNat = arg := by
  have hlow : arg &&& 1#24 = arg :=
    calc arg &&& 1#24 = arg &&& 1#24 ||| arg &&& 0xFFFFFE#24 := by rw [h, BitVec.or_zero]
      _ = arg &&& (1#24 ||| 0xFFFFFE#24) := BitVec.and_or_distrib_left.symm
      _ = arg := BitVec.and_allOnes
  exact ofNat_toNat_of_le_one (hlow ▸ Nat.and_le_right)

/-- The operand fields a row admits are those of the well-formed commands with its `op` and its mnemonic (R72, R73). -/
theorem exists_command_of_row : ∀ r ∈ opTable, ∀ arg : Arg, arg &&& argField r.mask = 0#24 →
    ∃ i : Instr, i.wellFormed = true ∧ i.opCode = opField r.pattern ∧ i.arg = arg ∧ i.mnemonic = r.mnemonic := by
  have hnone : ∀ arg : Arg, arg &&& BitVec.allOnes 24 = 0#24 → 0#24 = arg := fun arg h =>
    (BitVec.and_allOnes.symm.trans h).symm
  simp only [opTable, List.forall_mem_cons]
  refine ⟨fun arg _ => ⟨.cfgBegin arg.toNat, decide_eq_true arg.isLt, rfl, ofNat_toNat_arg arg, rfl⟩,
    fun arg _ => ⟨.cfgPoly arg.toNat, decide_eq_true arg.isLt, rfl, ofNat_toNat_arg arg, rfl⟩,
    fun arg h => ⟨.cfgCommit, rfl, rfl, hnone arg h, rfl⟩,
    fun arg h => ⟨.cfgNpar, rfl, rfl, hnone arg h, rfl⟩,
    fun arg h => ⟨.encStart, rfl, rfl, hnone arg h, rfl⟩,
    fun arg h => ⟨.encBit (arg.getLsbD 0), rfl, rfl, ofNat_toNat_of_and_bitMask h, rfl⟩,
    fun arg h => ⟨.decStart, rfl, rfl, hnone arg h, rfl⟩,
    fun arg h => ⟨.decBit (arg.getLsbD 0), rfl, rfl, ofNat_toNat_of_and_bitMask h, rfl⟩,
    fun arg h => ⟨.decFlush, rfl, rfl, hnone arg h, rfl⟩,
    fun arg h => ⟨.decTrace, rfl, rfl, hnone arg h, rfl⟩, fun r hr => nomatch hr⟩

/-- A word that matches a row decodes to a command with the row's mnemonic (R73). -/
theorem decode_of_spells {r : OpRow} (hr : r ∈ opTable) {w : Word} (h : r.spells w = true) :
    ∃ i, decode w = .command i ∧ i.mnemonic = r.mnemonic := by
  obtain ⟨hop, harg⟩ := (spells_iff hr w).1 h
  obtain ⟨i, hi, hopi, hargi, hname⟩ := exists_command_of_row r hr _ harg
  have hw : encode i = w := encode_eq_of_fields (hop.trans hopi.symm) hargi.symm
  exact ⟨i, hw ▸ decodeOfEncode i hi, hname⟩

/-! ### From a command to its row -/

/-- The word of every well-formed command matches a row with its mnemonic (R73). -/
theorem exists_row (i : Instr) : Laws.OpcodeRow.Statement i := by
  cases i with
  | cfgBegin k => exact Laws.OpcodeRow.cfgBegin k
  | cfgPoly p => exact Laws.OpcodeRow.cfgPoly p
  | cfgCommit => exact Laws.OpcodeRow.cfgCommit
  | cfgNpar => exact Laws.OpcodeRow.cfgNpar
  | encStart => exact Laws.OpcodeRow.encStart
  | encBit b => exact Laws.OpcodeRow.encBit b
  | decStart => exact Laws.OpcodeRow.decStart
  | decBit b => exact Laws.OpcodeRow.decBit b
  | decFlush => exact Laws.OpcodeRow.decFlush
  | decTrace => exact Laws.OpcodeRow.decTrace

/-- No two rows bear one mnemonic (R73). -/
theorem opTable_mnemonic_inj : ∀ r₁ ∈ opTable, ∀ r₂ ∈ opTable, r₁.mnemonic = r₂.mnemonic → r₁ = r₂ := by
  decide

/-- A word that decodes to a command matches the row with the command's mnemonic (R73). -/
theorem spells_of_decode {r : OpRow} (hr : r ∈ opTable) {w : Word} {i : Instr} (h : decode w = .command i)
    (hname : i.mnemonic = r.mnemonic) : r.spells w = true := by
  obtain ⟨hi, rfl⟩ := encodeOfDecode w i h
  obtain ⟨row, hrow, hrowName, hspells⟩ := exists_row i hi
  obtain rfl := opTable_mnemonic_inj row hrow r hr (hrowName.trans hname)
  exact hspells

/-- Settles O5: a word decodes to one command, whose mnemonic names one row. -/
theorem opcodeRowsAgreeWithDecoder : Obligations.OpcodeRowsAgreeWithDecoder := by
  unfold Obligations.OpcodeRowsAgreeWithDecoder
  intro w
  constructor
  · intro r₁ h₁ r₂ h₂ hw₁ hw₂
    obtain ⟨i, hd, hname₁⟩ := decode_of_spells h₁ hw₁
    obtain ⟨j, hd', hname₂⟩ := decode_of_spells h₂ hw₂
    obtain rfl := Decoded.command.inj (hd.symm.trans hd')
    exact opTable_mnemonic_inj r₁ h₁ r₂ h₂ (hname₁.symm.trans hname₂)
  · intro r hr
    exact ⟨decode_of_spells hr, fun ⟨i, hd, hname⟩ => spells_of_decode hr hd hname⟩

end Sys2Proof.Machine
end

section
/-! PROOFS. Family 40_configuration: bit reversal within `K` bits (R90), the next state (R92), and the output table as the XOR of
taps (R91, R94). -/

namespace Sys2Proof.Machine

/-! ### Bit reversal (R90) -/

theorem revK_lt (k p : Nat) : revK k p < 2 ^ k := by
  induction k with
  | zero => exact Nat.one_pos
  | succ k ih =>
    have : (p.testBit k).toNat ≤ 1 := Bool.toNat_le _
    rw [revK, pow_succ]
    omega

theorem testBit_revK {k j : Nat} (p : Nat) (hj : j < k) : (revK k p).testBit j = p.testBit (k - 1 - j) := by
  induction k generalizing j with
  | zero => exact absurd hj (Nat.not_lt_zero j)
  | succ k ih =>
    have hbit : (p.testBit k).toNat ≤ 1 := Bool.toNat_le _
    cases j with
    | zero => simp [revK, Nat.testBit_zero, Nat.add_mod]
    | succ j =>
      have hhalf : ((p.testBit k).toNat + 2 * revK k p) / 2 = revK k p := by omega
      rw [revK, Nat.testBit_succ, hhalf, ih (by omega)]
      congr 1
      omega

/-- Reversing twice is no change to a number of `K` bits. -/
theorem revK_revK {k p : Nat} (hp : p < 2 ^ k) : revK k (revK k p) = p := by
  refine Nat.eq_of_testBit_eq fun j => ?_
  rcases Nat.lt_or_ge j k with hj | hj
  · rw [testBit_revK _ hj, testBit_revK _ (by omega), show k - 1 - (k - 1 - j) = j by omega]
  · have hpow : 2 ^ k ≤ 2 ^ j := Nat.pow_le_pow_right (by decide) hj
    rw [Nat.testBit_lt_two_pow ((revK_lt _ _).trans_le hpow), Nat.testBit_lt_two_pow (hp.trans_le hpow)]

/-- Settles O24: bit by bit by induction on `K`, and reversing a position twice gives it back. -/
theorem revKReversesBits : Obligations.RevKReversesBits := by
  unfold Obligations.RevKReversesBits
  exact fun k p hp => ⟨fun j => testBit_revK p, revK_lt k p, revK_revK hp⟩

/-! ### The next state (R92) -/

/-- The next state is the combined index without its lowest bit (R92). -/
theorem nextState_eq_combinedIndex_shiftRight {k : Nat} (state : Nat) (b : Bit) (hk : 2 ≤ k) :
    nextState k state b = combinedIndex k state b >>> 1 := by
  rw [nextState, combinedIndex, Nat.shiftRight_or_distrib, show k - 1 = (k - 2) + 1 by omega,
    Nat.shiftLeft_add, Nat.shiftLeft_shiftRight]

/-- With `K = 2` the state is one bit, the last input (R92). -/
theorem nextState_two {state : Nat} (b : Bit) (h : state < numStates 2) : nextState 2 state b = b.toNat := by
  have hstate : state / 2 = 0 := Nat.div_eq_of_lt h
  rw [nextState_eq b le_rfl h, hstate]
  simp

/-- Settles O25: each clause is one fact about the shift register of `K-1` bits. -/
theorem nextStateLaws : Obligations.NextStateLaws := by
  unfold Obligations.NextStateLaws
  refine fun k state b hk h => ⟨rfl, nextState_lt b hk h, nextState_eq_combinedIndex_shiftRight state b hk,
    testBit_nextState_top b hk h, fun h2 => ?oneBit⟩
  case oneBit => subst h2; exact nextState_two b h

/-! ### Parity as an XOR, and an entry of the output table as the XOR of the polynomial's taps (R17, R91, R94) -/

/-- The XOR of `f d` over `d` in `[0, n)`. -/
def xorBelow (n : Nat) (f : Nat → Bit) : Bit := (List.range n).foldl (fun acc d => xor acc (f d)) false

@[simp] theorem xorBelow_zero (f : Nat → Bit) : xorBelow 0 f = false := rfl

@[simp] theorem xorBelow_succ (n : Nat) (f : Nat → Bit) : xorBelow (n + 1) f = xor (xorBelow n f) (f n) := by
  simp [xorBelow, List.range_succ]

theorem xorBelow_congr {n : Nat} {f g : Nat → Bit} (h : ∀ d < n, f d = g d) : xorBelow n f = xorBelow n g := by
  induction n with
  | zero => rfl
  | succ n ih => rw [xorBelow_succ, xorBelow_succ, ih fun d hd => h d (by omega), h n (by omega)]

/-- The first value may be taken out in place of the last one. -/
theorem xorBelow_succ_first (n : Nat) (f : Nat → Bit) :
    xorBelow (n + 1) f = xor (f 0) (xorBelow n fun d => f (d + 1)) := by
  induction n with
  | zero => simp
  | succ n ih => rw [xorBelow_succ, ih, xorBelow_succ, Bool.xor_assoc]

/-- The XOR may be taken from the top down. -/
theorem xorBelow_reverse (n : Nat) (f : Nat → Bit) : xorBelow n f = xorBelow n fun d => f (n - 1 - d) := by
  induction n with
  | zero => rfl
  | succ n ih =>
    have hrest : xorBelow n (fun d => f (n + 1 - 1 - (d + 1))) = xorBelow n fun d => f (n - 1 - d) :=
      xorBelow_congr fun d _ => congrArg f (by omega)
    rw [xorBelow_succ_first n fun d => f (n + 1 - 1 - d), hrest, ← ih, xorBelow_succ, Bool.xor_comm]
    rfl

/-- One bit more in a count changes whether it is odd. -/
theorem odd_add_toNat (m : Nat) (b : Bit) : ((m + b.toNat) % 2 == 1) = xor (m % 2 == 1) b := by
  cases b with
  | false => simp
  | true => rcases Nat.mod_two_eq_zero_or_one m with h | h <;> simp [Nat.add_mod, h]

theorem popcountBelow_odd (k x : Nat) : (popcountBelow k x % 2 == 1) = xorBelow k x.testBit := by
  induction k with
  | zero => rfl
  | succ k ih => rw [popcountBelow, odd_add_toNat, ih, xorBelow_succ]

/-- The parity of a number is the XOR of its bits (R17). -/
theorem parity_eq_xorBelow {k x : Nat} (hx : x < 2 ^ k) : parity x = xorBelow k x.testBit := by
  rw [parity, popcount_eq_below hx, popcountBelow_odd]

/-- An entry of the output table taps bit `K-1-d` of the combined index with bit `d` of the polynomial (R91, R94). -/
theorem entry_eq_xorBelow {k i : Nat} (p : Nat) (hi : i < 2 ^ k) :
    entry k p i = xorBelow k fun d => p.testBit d && i.testBit (k - 1 - d) := by
  rw [entry, parity_eq_xorBelow (Nat.and_lt_two_pow _ hi), xorBelow_reverse]
  refine xorBelow_congr fun d hd => ?_
  rw [Nat.testBit_and, testBit_revK p (by omega), show k - 1 - (k - 1 - d) = d by omega]

end Sys2Proof.Machine
end

section
/-! PROOFS. Family 40_configuration: `Encode` step by step, and its bits as those of the shift register with XOR taps (R54, R94,
R113). -/

namespace Sys2Proof.Machine

/-! ### The output of an encoding, step by step (R113) -/

theorem codecOutput_length (c : Codec) (state : Nat) (b : Bit) : (c.output state b).length = c.polys.length := by
  simp [Codec.output]

theorem codecOutput_get (c : Codec) (state : Nat) (b : Bit) {j : Nat} (hj : j < c.polys.length) :
    (c.output state b)[j]? = some (entry c.k (c.polys.getD j 0) (combinedIndex c.k state b)) := by
  simp [Codec.output, hj]

theorem encodeFrom_length (c : Codec) (state : Nat) (u : List Bit) :
    (c.encodeFrom state u).length = u.length * c.polys.length := by
  induction u generalizing state with
  | nil => simp [Codec.encodeFrom]
  | cons b u ih =>
    rw [Codec.encodeFrom, List.length_append, ih, codecOutput_length, List.length_cons, Nat.succ_mul, Nat.add_comm]

/-- Encoding goes on from the state the first part of the input leaves (R113). -/
theorem encodeFrom_append (c : Codec) (state : Nat) (u v : List Bit) :
    c.encodeFrom state (u ++ v) = c.encodeFrom state u ++ c.encodeFrom (u.foldl (nextState c.k) state) v := by
  induction u generalizing state with
  | nil => rfl
  | cons b u ih =>
    rw [List.cons_append, Codec.encodeFrom, Codec.encodeFrom, ih, List.append_assoc, List.foldl_cons]

theorem encode_append (c : Codec) (u v : List Bit) :
    c.encode (u ++ v) = c.encode u ++ c.encodeFrom (c.stateAfter u) v := encodeFrom_append c 0 u v

/-- Time step `n` of an encoding gives the output of the state that the first `n` inputs leave (R113). -/
theorem encode_get (c : Codec) {u : List Bit} {n j : Nat} (hn : n < u.length) (hj : j < c.polys.length) :
    (c.encode u)[n * c.polys.length + j]? = (c.output (c.stateAfter (u.take n)) u[n])[j]? := by
  have hbefore : (c.encode (u.take n)).length = n * c.polys.length := by
    rw [Codec.encode, encodeFrom_length, List.length_take_of_le hn.le]
  calc (c.encode u)[n * c.polys.length + j]?
      = (c.encode (u.take n ++ u[n] :: u.drop (n + 1)))[n * c.polys.length + j]? := by
        rw [← List.drop_eq_getElem_cons hn, List.take_append_drop]
    _ = (c.encodeFrom (c.stateAfter (u.take n)) (u[n] :: u.drop (n + 1)))[j]? := by
        rw [encode_append, List.getElem?_append_right (by omega), hbefore, Nat.add_sub_cancel_left]
    _ = (c.output (c.stateAfter (u.take n)) u[n])[j]? := by
        rw [Codec.encodeFrom, List.getElem?_append_left (by rwa [codecOutput_length])]

/-! ### The combined index holds the inputs the taps look at (R53, R94) -/

/-- Bit `K-1-d` of the combined index is the input `d` steps back from the one being consumed (R53). -/
theorem testBit_combinedIndex_stateAfter (c : Codec) (hk : 2 ≤ c.k) (u : List Bit) (b : Bit) {d : Nat} (hd : d < c.k) :
    (combinedIndex c.k (c.stateAfter u) b).testBit (c.k - 1 - d) = inputAgo (u ++ [b]) (d + 1) := by
  rcases Nat.eq_zero_or_pos d with rfl | hpos
  · rw [Nat.sub_zero, Nat.zero_add, testBit_combinedIndex_top b (stateAfter_lt c hk u), inputAgo_concat_one]
  · rw [testBit_combinedIndex_of_lt _ b (by omega), testBit_stateAfter c hk u hpos (by omega),
      inputAgo_concat_succ u b hpos]

/-- Among the inputs up to time step `n`, the one `d` steps back from the last is `u[n-d]`. -/
theorem inputAgo_take {u : List Bit} {n : Nat} (hn : n < u.length) (d : Nat) :
    inputAgo (u.take n ++ [u[n]]) (d + 1) = (decide (d ≤ n) && u.getD (n - d) false) := by
  rw [List.take_concat_get' u n hn, inputAgo, List.length_take_of_le hn, Nat.succ_sub_succ,
    List.getD_eq_getElem?_getD, List.getElem?_take_of_lt (by omega), ← List.getD_eq_getElem?_getD]
  simp

theorem tapParity_eq_xorBelow (k p : Nat) (u : List Bit) (n : Nat) :
    tapParity k p u n = xorBelow k fun d => p.testBit d && (decide (d ≤ n) && u.getD (n - d) false) := rfl

/-- The table entry looked up at time step `n` is the tap parity of R94, for each polynomial. -/
theorem entry_stateAfter_eq_tapParity (c : Codec) (hk : 2 ≤ c.k) (p : Nat) {u : List Bit} {n : Nat} (hn : n < u.length) :
    entry c.k p (combinedIndex c.k (c.stateAfter (u.take n)) u[n]) = tapParity c.k p u n := by
  have hindex := combinedIndex_lt u[n] (by omega : 1 ≤ c.k) (stateAfter_lt c hk (u.take n))
  rw [entry_eq_xorBelow p hindex, tapParity_eq_xorBelow]
  refine xorBelow_congr fun d hd => ?_
  rw [testBit_combinedIndex_stateAfter c hk _ _ hd, inputAgo_take hn]

/-- Settles O29: step `n` looks up the entry of a combined index that holds the last `K` inputs, and that entry is the XOR of the
inputs the polynomial taps; the beginning of an encoding does not look at later inputs. -/
theorem encoderIsTheShiftRegister : Obligations.EncoderIsTheShiftRegister := by
  unfold Obligations.EncoderIsTheShiftRegister
  refine fun c u hc => ⟨encodeFrom_length c 0 u, fun n hn j hj => ?taps, fun v => ?extension⟩
  case taps => rw [encode_get c hn hj, codecOutput_get c _ _ hj, entry_stateAfter_eq_tapParity c hc.k_ge _ hn]
  case extension => rw [encode_append]; exact List.take_left' (encodeFrom_length c 0 u)

end Sys2Proof.Machine
end

section
/-! PROOFS. Family 40_configuration: what each CFG command does (R95, R96, R98, R99), and that nothing rewrites a configuration
once a codec exists (R100). -/

namespace Sys2Proof.Machine

/-! ### A command, by the outcome of its checks (R175, R176, R178) -/

theorem exec_of_ok {i : Instr} {s t : State} (hm : s.mode = i.acceptedIn) (hb : commandBody i s = .ok t) :
    exec i s = .next t := by
  rw [exec_eq_runCommand, runCommand_ok hm hb]

theorem exec_of_error {i : Instr} {s : State} {c : Cause} (hm : s.mode = i.acceptedIn) (hb : commandBody i s = .error c) :
    exec i s = .next (faulted c.code (encode i) s) := by
  rw [exec_eq_runCommand, runCommand_error hm hb]
  rfl

theorem exec_of_wrongMode {i : Instr} {s : State} (hf : s.mode ≠ .failed) (hm : s.mode ≠ i.acceptedIn) :
    exec i s = .next (faulted 6 (encode i) s) := by
  rw [exec_eq_runCommand, runCommand_wrongMode hf hm]
  rfl

/-- A command in one of the two other modes that ignore no word (R20, R175). -/
theorem exec_of_mode_or {i : Instr} {s : State} {a b : Mode} (h : s.mode = a ∨ s.mode = b)
    (ha : a ≠ .failed ∧ a ≠ i.acceptedIn) (hb : b ≠ .failed ∧ b ≠ i.acceptedIn) :
    exec i s = .next (faulted 6 (encode i) s) := by
  rcases h with h | h
  · exact exec_of_wrongMode (h ▸ ha.1) (h ▸ ha.2)
  · exact exec_of_wrongMode (h ▸ hb.1) (h ▸ hb.2)

/-! ### The checks that name a fault (R95, R96, R98) -/

theorem commandBody_cfgBegin_badConstraint {k : Nat} {s : State} (h : k < 2 ∨ s.config.kmax < k) :
    commandBody (.cfgBegin k) s = .error .badConstraint := if_pos h

theorem commandBody_cfgPoly_zero (s : State) : commandBody (.cfgPoly 0) s = .error .nonpositivePoly := by
  rw [commandBody, addPoly, if_pos rfl]

theorem commandBody_cfgPoly_tooWide {p : Nat} {s : State} (hp : 2 ^ s.k ≤ p) :
    commandBody (.cfgPoly p) s = .error .polyTooWide := by
  have h0 : p ≠ 0 := ((Nat.two_pow_pos s.k).trans_le hp).ne'
  rw [commandBody, addPoly, if_neg h0, if_pos hp]

theorem commandBody_cfgPoly_full {p : Nat} {s : State} (h0 : p ≠ 0) (hp : p < 2 ^ s.k)
    (hfull : s.config.nmax = .atMost s.n) : commandBody (.cfgPoly p) s = .error .capacity := by
  rw [commandBody, addPoly, if_neg h0, if_neg (Nat.not_le.2 hp), if_pos (isFull_iff.2 hfull)]

theorem commandBody_cfgCommit_empty {s : State} (h : s.n = 0) : commandBody .cfgCommit s = .error .emptyPolySet := if_pos h

/-! ### CFG.BEGIN, CFG.POLY, CFG.NPAR (R95, R96, R99) -/

/-- Settles O19: the range check of `k` decides between the effect and `BAD_CONSTRAINT`. -/
theorem cfgBeginEffect : Obligations.CfgBeginEffect := by
  unfold Obligations.CfgBeginEffect
  intro k s
  refine ⟨fun hm h2 hmax => exec_of_ok hm (beginConfig_ok.2 ⟨h2, hmax, rfl⟩),
    fun hm hbad => exec_of_error hm (commandBody_cfgBegin_badConstraint hbad), fun hm => ?wrongMode⟩
  case wrongMode => exact exec_of_mode_or hm ⟨nofun, nofun⟩ ⟨nofun, nofun⟩

/-- The polynomials delivered so far are those at the indexes below `N` (R23). -/
theorem polys_get {s : State} {j : Nat} (hj : j < s.n) : s.polys[j]? = s.g[j]? := List.getElem?_take_of_lt hj

theorem polys_length_of_le {s : State} (h : s.n ≤ s.g.length) : s.polys.length = s.n := List.length_take_of_le h

/-- Settles O20: the checks in the order R96 writes them, and then the list with `p` at its end. -/
theorem cfgPolyEffect : Obligations.CfgPolyEffect := by
  unfold Obligations.CfgPolyEffect
  intro p s
  refine ⟨fun hm hlen h0 hp hroom => ?effect, fun hm h0 => ?zero,
    fun hm hp => exec_of_error hm (commandBody_cfgPoly_tooWide hp),
    fun hm h0 hp hfull => exec_of_error hm (commandBody_cfgPoly_full h0 hp hfull), fun hm => ?wrongMode⟩
  case effect =>
    have hpolys := polys_length_of_le hlen
    refine ⟨s.polys ++ [p], exec_of_ok hm (addPoly_ok.2 ⟨h0, hp, hroom, rfl⟩), fun j hj => ?_, ?_⟩
    · rw [List.getElem?_append_left (hpolys.symm ▸ hj), polys_get hj]
    · rw [← hpolys, List.getElem?_concat_length]
  case zero => subst h0; exact exec_of_error hm (commandBody_cfgPoly_zero s)
  case wrongMode => exact exec_of_mode_or hm ⟨nofun, nofun⟩ ⟨nofun, nofun⟩

/-- Settles O22: CFG.NPAR has no check of its own but the mode. -/
theorem cfgNparEffect : Obligations.CfgNparEffect := by
  unfold Obligations.CfgNparEffect
  exact fun s => ⟨fun hm => exec_of_ok hm rfl, fun hm => exec_of_mode_or hm ⟨nofun, nofun⟩ ⟨nofun, nofun⟩⟩

/-! ### CFG.COMMIT (R98) -/

/-- The start of a decode call, element by element (R33). -/
theorem freshMetrics_initialMetrics (k : Nat) : FreshMetrics k (initialMetrics k) where
  length := initialMetrics_length k
  zero := initialMetrics_get (numStates_pos k)
  others s h1 hs := by rw [initialMetrics_get hs, if_neg (by omega)]

/-- The table of the polynomials delivered, bit by bit (R91, R98). -/
theorem outputTable_polys_get {s : State} (hlen : s.n ≤ s.g.length) {i j : Nat} (hi : i < 2 ^ s.k) (hj : j < s.n) :
    ((outputTable s.k s.polys).getD i [])[j]? = some (parity (revK s.k (s.g.getD j 0) &&& i)) := by
  rw [outputTable_getD _ hi, List.getElem?_map, polys_get hj, getElem?_eq_some_getD_of_lt (by omega) 0]
  rfl

/-- Settles O21: the state CFG.COMMIT leaves is given by its pseudocode, and table and metrics are read off element by element. -/
theorem cfgCommitEffect : Obligations.CfgCommitEffect := by
  unfold Obligations.CfgCommitEffect
  refine fun s => ⟨fun hm hlen hn => ?effect, fun hm hn => exec_of_error hm (commandBody_cfgCommit_empty hn),
    fun hm => ?wrongMode⟩
  case effect =>
    refine ⟨_, exec_of_ok hm (commitConfig_ok.2 ⟨hn, rfl⟩), rfl, outputTable_length _ _,
      fun i hi => ⟨?width, fun j => outputTable_polys_get hlen hi⟩, freshMetrics_initialMetrics s.k⟩
    case width => rw [outputTable_getD _ hi, List.length_map, polys_length_of_le hlen]
  case wrongMode => exact exec_of_mode_or hm ⟨nofun, nofun⟩ ⟨nofun, nofun⟩

/-! ### Once a codec exists (R100) -/

/-- A command taken in `READY` or ignored in `FAILED` leaves the code and its table (R100). -/
theorem exec_keeps_code {i : Instr} {s t : State} (h : exec i s = .next t) (hm : s.mode = .ready ∨ s.mode = .failed) :
    t.k = s.k ∧ t.n = s.n ∧ t.g = s.g ∧ t.out = s.out := by
  rcases exec_cases h with ⟨-, rfl⟩ | ⟨-, -, rfl⟩ | ⟨hf, hi, hb⟩ | ⟨-, -, c, -, rfl⟩
  · exact ⟨rfl, rfl, rfl, rfl⟩
  · exact ⟨rfl, rfl, rfl, rfl⟩
  · have hready : i.acceptedIn = .ready := hi.symm.trans (hm.resolve_right hf)
    obtain ⟨_, _, _, _, _, _, _, -, rfl⟩ := readyBody_frame hready hb
    exact ⟨rfl, rfl, rfl, rfl⟩
  · exact ⟨rfl, rfl, rfl, rfl⟩

/-- Settles O23: the commands of `READY` write neither the code nor its table, and a fault or an ignored word writes even less. -/
theorem configurationIsImmutable : Obligations.ConfigurationIsImmutable := by
  unfold Obligations.ConfigurationIsImmutable
  exact fun i s t h => ⟨(exec_keeps h).1, exec_keeps_code h⟩

end Sys2Proof.Machine
end

section
/-! PROOFS. Family 41_encoder: what ENC.START and ENC.BIT do (R111, R112), and in the invariant the parities that ENC.BIT appends
(R110, R91). -/

namespace Sys2Proof.Machine

/-! ### The effect of the two commands (R111, R112) -/

/-- Settles O26: ENC.START has no check of its own but the mode. -/
theorem encStartEffect : Obligations.EncStartEffect := by
  unfold Obligations.EncStartEffect
  exact fun s => ⟨fun hm => exec_of_ok hm rfl, fun hm => exec_of_mode_or hm ⟨nofun, nofun⟩ ⟨nofun, nofun⟩⟩

theorem exec_encBit_ready {s : State} (b : Bit) (hm : s.mode = .ready) :
    exec (.encBit b) s = .next (encodeBit b s) := exec_of_ok hm rfl

/-- Settles O27: ENC.BIT has no check of its own but the mode, and its step is the table entry and the next state as R112 writes
them. -/
theorem encBitEffect : Obligations.EncBitEffect := by
  unfold Obligations.EncBitEffect
  exact fun b s => ⟨exec_encBit_ready b, fun hm => exec_of_mode_or hm ⟨nofun, nofun⟩ ⟨nofun, nofun⟩⟩

/-! ### The parities appended (R91, R110) -/

/-- The output of a state is `N` bits long (R31, R93). -/
theorem ReadyOk.output_length {s : State} (h : ReadyOk s) (hk : 1 ≤ s.k) {state : Nat} (b : Bit)
    (hs : state < numStates s.k) : (s.output state b).length = s.n :=
  h.out_width _ (combinedIndex_lt b hk hs)

/-- Bit `j` of the output of a state is the parity of the taps of `G[j]` at the combined index (R91, R93). -/
theorem ReadyOk.output_get {s : State} (h : ReadyOk s) (hk : 1 ≤ s.k) {state j : Nat} (b : Bit)
    (hs : state < numStates s.k) (hj : j < s.n) :
    (s.output state b)[j]? = some (parity (revK s.k (s.g.getD j 0) &&& combinedIndex s.k state b)) :=
  h.out_get (combinedIndex_lt b hk hs) hj

/-- The next state is half the combined index (R92). -/
theorem nextState_eq_combinedIndex_half {k : Nat} (state : Nat) (b : Bit) (hk : 2 ≤ k) :
    nextState k state b = combinedIndex k state b / 2 := by
  rw [nextState_eq_combinedIndex_shiftRight state b hk, Nat.shiftRight_one]

/-- Settles O28: the bound of `ES` keeps the combined index within the table, whose entry gives the `N` parities, and half of that
index is the next state. -/
theorem encBitEmitsParities : Obligations.EncBitEmitsParities := by
  unfold Obligations.EncBitEmitsParities
  intro b s hinv hm
  have hk : 2 ≤ s.k := (hinv.registers_ok (.inr hm)).k_ge
  have hready : ReadyOk s := hinv.ready_ok hm
  have hes : s.es < numStates s.k := hready.es_lt
  have hindex : combinedIndex s.k s.es b = s.es + b.toNat * 2 ^ (s.k - 1) := combinedIndex_eq b hes
  refine ⟨encodeBit b s, s.output s.es b, exec_encBit_ready b hm, encodeBit_encOut b s,
    hready.output_length (by omega) b hes, fun j hj => ?parity, ?half, nextState_lt b hk hes⟩
  case parity => rw [← hindex]; exact hready.output_get (by omega) b hes hj
  case half => rw [← hindex]; exact nextState_eq_combinedIndex_half s.es b hk

end Sys2Proof.Machine
end

section
/-! PROOFS. Family 42_forward_pass: the predecessors of a state (R121), the trellis step as R126 writes it, and what DEC.START,
DEC.BIT and DEC.FLUSH do (R122, R123, R124). -/

namespace Sys2Proof.Machine

/-! ### Predecessors (R121) -/

/-- The input that drives a predecessor into a state is `t >> (K-2)`, whatever `K` (R121). -/
theorem topBit_toNat_eq_shiftRight {k t : Nat} (h : t < numStates k) : (topBit k t).toNat = t >>> (k - 2) := by
  rcases Nat.lt_or_ge k 2 with hk | hk
  · rw [numStates, show k - 1 = 0 by omega, pow_zero, Nat.lt_one_iff] at h
    simp [h, topBit]
  · rw [topBit_toNat hk h, Nat.shiftRight_eq_div_pow]

/-- The two predecessors are the states whose bits above the lowest are the low bits of the target (R121). -/
theorem half_eq_mod_iff {k s t : Nat} : s / 2 = t % 2 ^ (k - 2) ↔ s = pred0 k t ∨ s = pred1 k t := by
  rw [pred0_eq, pred1_eq]; omega

theorem bit_toNat_inj {u v : Bit} : u.toNat = v.toNat ↔ u = v :=
  (Function.LeftInverse.injective Bool.ofNat_toNat).eq_iff

/-- An input takes a state to a target exactly when it is the target's top bit and the state is one of its two predecessors
(R92, R121). -/
theorem nextState_eq_iff {k s t : Nat} (u : Bit) (hk : 2 ≤ k) (hs : s < numStates k) (ht : t < numStates k) :
    nextState k s u = t ↔ u = topBit k t ∧ (s = pred0 k t ∨ s = pred1 k t) := by
  have hhalf : s / 2 < 2 ^ (k - 2) := by rw [numStates_double hk] at hs; omega
  calc nextState k s u = t
    _ ↔ s / 2 + 2 ^ (k - 2) * u.toNat = t ∧ s / 2 < 2 ^ (k - 2) := by
      rw [nextState_eq u hk hs, mul_comm, and_iff_left hhalf]
    _ ↔ t / 2 ^ (k - 2) = u.toNat ∧ t % 2 ^ (k - 2) = s / 2 := (Nat.div_mod_unique (Nat.two_pow_pos _)).symm
    _ ↔ u = topBit k t ∧ (s = pred0 k t ∨ s = pred1 k t) := by
      rw [← topBit_toNat hk ht, bit_toNat_inj, eq_comm, eq_comm (a := t % _), half_eq_mod_iff]

/-- Settles O31: the next state splits into the input and the upper bits of the state, and the two predecessors share these. -/
theorem predecessorsAreExact : Obligations.PredecessorsAreExact := by
  unfold Obligations.PredecessorsAreExact
  refine fun k t hk ht => ⟨fun s u hs => ?exact, ?even, by rw [pred0_eq, pred1_eq], pred1_lt hk⟩
  case exact =>
    rw [nextState_eq_iff u hk hs ht, ← topBit_toNat_eq_shiftRight ht, bit_toNat_inj]
    rfl
  case even => rw [pred0_eq, Nat.mul_mod_right]

/-! ### The trellis step (R126) -/

/-- The column the machine computes, for any group, is the one R126 writes. -/
theorem trellisStepSpec_stepColumn (s : State) (grp : List Bit) :
    TrellisStepSpec s grp ((stepColumn s.k s.output s.pm grp).map Prod.fst)
      ((stepColumn s.k s.output s.pm grp).map Prod.snd) where
  npm_length := by rw [List.length_map, stepColumn_length]; rfl
  col_length := by rw [List.length_map, stepColumn_length]; rfl
  select t ht := by
    rw [stepColumn_fst_get ht, stepColumn_snd_get ht, ← topBit_toNat_eq_shiftRight ht]
    constructor
    · intro hle
      have hsel := compareSelect_of_leInf hle (pred0 s.k t) (pred1 s.k t)
      exact ⟨congrArg (some ·.1) hsel, congrArg (some ·.2) hsel⟩
    · intro hgt
      have hsel := compareSelect_of_not_leInf hgt (pred0 s.k t) (pred1 s.k t)
      exact ⟨congrArg (some ·.1) hsel, congrArg (some ·.2) hsel⟩

/-- A command whose pseudocode ends in a trellis step leaves what R126 writes and an empty group buffer, all else unchanged. -/
theorem exec_of_groupTaken {i : Instr} {s : State} {grp : List Bit} (hm : s.mode = i.acceptedIn)
    (hb : commandBody i s = .ok (groupTaken grp s)) :
    ∃ npm col, TrellisStepSpec s grp npm col ∧ exec i s = .next { s with pm := npm, tr := s.tr ++ [col], gb := [] } :=
  ⟨_, _, trellisStepSpec_stepColumn s grp, exec_of_ok hm hb⟩

/-! ### The effect of the three commands (R122, R123, R124) -/

theorem commandBody_decBit_full {b : Bit} {s : State} (hlast : s.gb.length + 1 = s.n)
    (hfull : s.config.tmax = .atMost s.tr.length) : commandBody (.decBit b) s = .error .capacity :=
  receiveBit_error.2 ⟨hlast.ge, hfull, rfl⟩

theorem commandBody_decFlush_full {s : State} (hgroup : s.gb ≠ []) (hfull : s.config.tmax = .atMost s.tr.length) :
    commandBody .decFlush s = .error .capacity :=
  flushGroup_error.2 ⟨hgroup, hfull, rfl⟩

/-- Settles O33: DEC.START has no check of its own but the mode. -/
theorem decStartEffect : Obligations.DecStartEffect := by
  unfold Obligations.DecStartEffect
  exact fun s => ⟨fun hm => ⟨_, freshMetrics_initialMetrics s.k, exec_of_ok hm rfl⟩,
    fun hm => exec_of_mode_or hm ⟨nofun, nofun⟩ ⟨nofun, nofun⟩⟩

/-- Settles O34: the bit is stored while the group stays short, and the one that completes it runs the trellis step or finds the
trellis full. -/
theorem decBitEffect : Obligations.DecBitEffect := by
  unfold Obligations.DecBitEffect
  refine fun b s => ⟨fun hm hshort => ?stored, fun hm hlast hroom => ?stepped, fun hm hlast hfull => ?full,
    fun hm => exec_of_mode_or hm ⟨nofun, nofun⟩ ⟨nofun, nofun⟩⟩
  case stored => exact exec_of_ok hm (receiveBit_ok.2 (.inl ⟨hshort, rfl⟩))
  case stepped => exact exec_of_groupTaken hm (receiveBit_ok.2 (.inr ⟨hlast.ge, hroom, rfl⟩))
  case full => exact exec_of_error hm (commandBody_decBit_full hlast hfull)

/-- Settles O35: an empty buffer leaves nothing to do, and a short group runs the trellis step on its padding with zeros or finds
the trellis full. -/
theorem decFlushEffect : Obligations.DecFlushEffect := by
  unfold Obligations.DecFlushEffect
  refine fun s => ⟨fun hm hempty => ?nothing, fun hm hgroup hroom => ?stepped, fun hm hgroup hfull => ?full,
    fun hm => exec_of_mode_or hm ⟨nofun, nofun⟩ ⟨nofun, nofun⟩⟩
  case nothing => exact exec_of_ok hm (flushGroup_ok.2 (.inl ⟨hempty, rfl⟩))
  case stepped => exact exec_of_groupTaken hm (flushGroup_ok.2 (.inr ⟨hgroup, hroom, rfl⟩))
  case full => exact exec_of_error hm (commandBody_decFlush_full hgroup hfull)

end Sys2Proof.Machine
end

section
/-! PROOFS. Family 42_forward_pass: the metrics across a trellis step and in every `READY` state of a run (R130, R131). -/

namespace Sys2Proof.Machine

/-! ### The growth of the metrics (R131) -/

theorem eq_fin_of_leInf_fin {a : Metric} {c : Nat} (h : leInf a (.fin c) = true) : ∃ m, a = .fin m ∧ m ≤ c := by
  cases a with
  | inf => exact absurd h nofun
  | fin m => exact ⟨m, rfl, of_decide_eq_true h⟩

/-- The metric of a state after a trellis step is no larger than the candidate along any transition into it (R126). -/
theorem stepColumn_metric_le_candidate {k : Nat} (hk : 2 ≤ k) (output : Nat → Bit → List Bit) (pm : List Metric)
    (grp : List Bit) {x : Nat} (u : Bit) (hx : x < numStates k) :
    leInf (metricAt ((stepColumn k output pm grp).map Prod.fst) (nextState k x u)) (candidate output pm grp x u) = true := by
  have hy := nextState_lt u hk hx
  obtain ⟨htop, hpred⟩ := (nextState_eq_iff u hk hx hy).1 rfl
  obtain ⟨-, -, hle0, hle1⟩ := selectPredecessor_spec k output pm grp (nextState k x u)
  rw [← htop] at hle0 hle1
  rw [metricAt_stepColumn hy]
  rcases hpred with h0 | h1
  · rwa [← h0] at hle0
  · rwa [← h1] at hle1

/-- A branch metric is at most `N` (R125). -/
theorem ReadyOk.hd_output_le {s : State} (h : ReadyOk s) (hk : 1 ≤ s.k) (grp : List Bit) {x : Nat} (u : Bit)
    (hx : x < numStates s.k) : hd grp (s.output x u) ≤ s.n :=
  h.output_length hk u hx ▸ hd_le_right grp (s.output x u)

/-- From a state with a finite metric every transition gives a finite metric, larger by at most `N` (R131). -/
theorem ReadyOk.groupTaken_metric_le {s : State} (h : ReadyOk s) (hk : 2 ≤ s.k) (grp : List Bit) {x m : Nat} (u : Bit)
    (hx : x < numStates s.k) (hm : metricAt s.pm x = .fin m) :
    ∃ m', metricAt (groupTaken grp s).pm (nextState s.k x u) = .fin m' ∧ m' ≤ m + s.n := by
  have hle := stepColumn_metric_le_candidate hk s.output s.pm grp u hx
  rw [candidate, hm, addInf_fin] at hle
  obtain ⟨m', heq, hbound⟩ := eq_fin_of_leInf_fin hle
  have hbranch := h.hd_output_le (by omega) grp u hx
  exact ⟨m', heq, by omega⟩

/-- A bit that completes a group without a fault runs the trellis step (R123). -/
theorem exec_decBit_last {s t : State} {b : Bit} (hm : s.mode = .ready) (hlast : s.gb.length + 1 = s.n)
    (he : exec (.decBit b) s = .next t) (ht : t.mode = .ready) : t = groupTaken (s.gb ++ [b]) s := by
  rcases exec_cases he with ⟨hf, -⟩ | ⟨-, hw, -⟩ | ⟨-, -, hb⟩ | ⟨-, -, c, -, rfl⟩
  · exact absurd (hm.symm.trans hf) nofun
  · exact absurd hm hw
  · rcases receiveBit_ok.1 hb with ⟨hshort, -⟩ | ⟨-, -, rfl⟩
    · omega
    · rfl
  · exact absurd ht nofun

/-- Settles O36: no new metric is below the old one it was taken from, and a transition adds at most `N`. -/
theorem smallestMetricGrowsByAtMostN : Obligations.SmallestMetricGrowsByAtMostN := by
  unfold Obligations.SmallestMetricGrowsByAtMostN
  intro s t b hinv hm hlast he ht
  obtain rfl := exec_decBit_last hm hlast he ht
  have hk : 2 ≤ s.k := (hinv.registers_ok (.inr hm)).k_ge
  exact ⟨fun x hx => stepColumn_metric_ge hk s.output s.pm (s.gb ++ [b]) hx,
    fun x hx m hfin => (hinv.ready_ok hm).groupTaken_metric_le hk (s.gb ++ [b]) false hx hfin⟩

/-! ### Which metrics are finite (R130) -/

/-- Settles O37: the invariant of every state of a run says it, and state 0 is reached at every time. -/
theorem reachabilityAndBoundOfMetrics : Obligations.ReachabilityAndBoundOfMetrics := by
  unfold Obligations.ReachabilityAndBoundOfMetrics
  intro s hs hm
  have hready := (invariant_of_reachable hs).ready_ok hm
  exact ⟨hready.pm_finite, hready.metric_zero_finite, hready.pm_le⟩

end Sys2Proof.Machine
end

section
/-! PROOFS. Family 43_traceback: the traceback's walk as the states it visits (R141), what DEC.TRACE does (R142), and that in every
run the walk visits finite states only (R143, R132). -/

namespace Sys2Proof.Machine

/-! ### The states of the walk (R141) -/

/-- The state of the walk before column `c`, when it starts in `last` after the last column (R141). -/
def walkState (tr : List (List Nat)) (last c : Nat) : Nat := (tr.drop c).foldr predecessorAt last

theorem walkState_length (tr : List (List Nat)) (last : Nat) : walkState tr last tr.length = last := by
  rw [walkState, List.drop_length, List.foldr_nil]

/-- The walk moves to the predecessor that column `c` records (R141). -/
theorem walkState_of_lt {tr : List (List Nat)} {c : Nat} (last : Nat) (hc : c < tr.length) :
    walkState tr last c = predecessorAt (tr.getD c []) (walkState tr last (c + 1)) := by
  rw [walkState, List.drop_eq_getElem_cons hc, List.foldr_cons, List.getD_eq_getElem _ _ hc, walkState]

theorem walkState_concat {tr : List (List Nat)} {c : Nat} (column : List Nat) (last : Nat) (hc : c ≤ tr.length) :
    walkState (tr ++ [column]) last c = walkState tr (predecessorAt column last) c := by
  rw [walkState, List.drop_append_of_le_length hc, List.foldr_append, List.foldr_cons, List.foldr_nil, walkState]

/-- The bit the walk collects at column `c` is the top bit of the state after it (R140, R141). -/
theorem walkBack_getD (k : Nat) {tr : List (List Nat)} {c : Nat} (last : Nat) (hc : c < tr.length) :
    (walkBack k tr.reverse last).1.reverse.getD c false = topBit k (walkState tr last (c + 1)) := by
  induction tr using List.reverseRecOn generalizing last with
  | nil => exact absurd hc (Nat.not_lt_zero c)
  | append_singleton tr column ih =>
    rw [walkBack_concat]
    rcases Nat.lt_or_ge c tr.length with hlt | hge
    · rw [List.getD_append _ _ _ _ (by simpa using hlt), ih _ hlt, walkState_concat _ _ hlt]
    · obtain rfl : c = tr.length := by
        rw [List.length_append, List.length_singleton] at hc; omega
      have hwalk : (walkBack k tr.reverse (predecessorAt column last)).1.reverse.length = tr.length := by simp
      have hend : walkState (tr ++ [column]) last (tr.length + 1) = last := by
        simpa using walkState_length (tr ++ [column]) last
      rw [List.getD_append_right _ _ _ _ hwalk.le, hwalk, Nat.sub_self, List.getD_cons_zero, hend]

/-- The bits the machine collects are those R140 and R141 describe, for any metrics and any trellis. -/
theorem tracebackSpec_tracebackBits (k : Nat) (pm : List Metric) (tr : List (List Nat)) :
    TracebackSpec k pm tr (tracebackBits k pm tr) := by
  obtain ⟨hrange, hmin, hfirst⟩ := bestState_firstMinimum k pm
  refine ⟨tracebackBits_length k pm tr, walkState tr (bestState k pm), ?_,
    fun c hc => ⟨walkBack_getD k _ hc, walkState_of_lt _ hc⟩⟩
  rw [walkState_length]
  exact ⟨hrange, hmin, hfirst⟩

/-! ### The effect of DEC.TRACE (R142) -/

theorem commandBody_decTrace_full {s : State} (hgroup : s.gb ≠ []) (hfull : s.config.tmax = .atMost s.tr.length) :
    commandBody .decTrace s = .error .capacity :=
  endDecode_error.2 (flushGroup_error.2 ⟨hgroup, hfull, rfl⟩)

/-- What DEC.TRACE leaves when no group is pending: the group buffer need not be written. -/
theorem startDecoder_traceback_of_empty {s : State} (hempty : s.gb = []) :
    (traceback s).startDecoder = { s with
      decOut := s.decOut ++ tracebackBits s.k s.pm s.tr, pm := initialMetrics s.k, tr := [], gb := s.gb } := by
  rw [hempty]; rfl

/-- Settles O39: an empty buffer leaves the traceback alone, and a short group runs the trellis step on its padding with zeros
first or finds the trellis full. -/
theorem decTraceEffect : Obligations.DecTraceEffect := by
  unfold Obligations.DecTraceEffect
  refine fun s => ⟨fun hm hempty => ?traced, fun hm hgroup hroom => ?padded, fun hm hgroup hfull => ?full,
    fun hm => exec_of_mode_or hm ⟨nofun, nofun⟩ ⟨nofun, nofun⟩⟩
  case traced =>
    exact ⟨_, _, tracebackSpec_tracebackBits s.k s.pm s.tr, freshMetrics_initialMetrics s.k, exec_of_ok hm
      (endDecode_ok.2 ⟨s, flushGroup_ok.2 (.inl ⟨hempty, rfl⟩), (startDecoder_traceback_of_empty hempty).symm⟩)⟩
  case padded =>
    exact ⟨_, _, _, _, trellisStepSpec_stepColumn s (padGroup s.n s.gb), tracebackSpec_tracebackBits _ _ _,
      freshMetrics_initialMetrics s.k,
      exec_of_ok hm (endDecode_ok.2 ⟨_, flushGroup_ok.2 (.inr ⟨hgroup, hroom, rfl⟩), rfl⟩)⟩
  case full => exact exec_of_error hm (commandBody_decTrace_full hgroup hfull)

/-! ### The walk visits finite states only (R143) -/

/-- The final scan selects a finite metric, since that of state 0 is finite (R143). -/
theorem ReadyOk.firstMinimum_finite {s : State} (h : ReadyOk s) {best : Nat} (hbest : FirstMinimum s.k s.pm best) :
    metricAt s.pm best ≠ .inf := by
  intro hinf
  have hle : leInf (metricAt s.pm best) (metricAt s.pm 0) = true := hbest.minimal 0 (Nat.two_pow_pos _)
  rw [hinf] at hle
  cases hzero : metricAt s.pm 0 with
  | inf => exact h.metric_zero_finite hzero
  | fin m => rw [hzero] at hle; exact absurd hle nofun

/-- Column `c` leads from a state reached in `c + 1` steps to one reached in `c` (R132). -/
theorem ReadyOk.predecessor_reachedIn {s : State} (h : ReadyOk s) (hk : 2 ≤ s.k) {c t : Nat} (hc : c < s.tr.length)
    (ht : t < numStates s.k) (hreached : ReachedIn s.k (c + 1) t) :
    predecessorAt (s.tr.getD c []) t < numStates s.k ∧ ReachedIn s.k c (predecessorAt (s.tr.getD c []) t) := by
  have hmem : s.tr.getD c [] ∈ s.tr := by
    rw [List.getD_eq_getElem _ _ hc]; exact List.getElem_mem hc
  exact ⟨predecessor_lt hk ((h.tr_column _ hmem).2 t ht), h.tr_finite c hc t ht hreached⟩

/-- Settles O40: the scan selects a finite state, each column leads back to a state finite at its time, and before the first
column only state 0 is. -/
theorem tracebackVisitsFiniteStates : Obligations.TracebackVisitsFiniteStates := by
  unfold Obligations.TracebackVisitsFiniteStates
  intro s cur hs hm hbest hwalk
  have hinv := invariant_of_reachable hs
  have hready := hinv.ready_ok hm
  have hk : 2 ≤ s.k := (hinv.registers_ok (.inr hm)).k_ge
  have hfinite := hready.firstMinimum_finite hbest
  have hvisited : ∀ c ≤ s.tr.length, cur c < numStates s.k ∧ ReachedIn s.k c (cur c) := by
    intro c hc
    induction hc using Nat.decreasingInduction with
    | self => exact ⟨hbest.in_range, (hready.pm_finite _ hbest.in_range).1 hfinite⟩
    | of_succ c hc ih =>
      rw [show cur c = predecessorAt (s.tr.getD c []) (cur (c + 1)) from hwalk c hc]
      exact hready.predecessor_reachedIn hk hc ih.1 ih.2
  have hstart := hvisited 0 (Nat.zero_le _)
  exact ⟨hfinite, hvisited, (reachedIn_start hstart.1).1 hstart.2⟩

end Sys2Proof.Machine
end

section
/-! PROOFS. Family 43_traceback: a received sequence is cut into groups of `N` bits, the last one padded (R55, R56, R144). -/

namespace Sys2Proof.Machine

/-! ### The number of groups (R144) -/

theorem ceilDiv_zero {n : Nat} (hn : 1 ≤ n) : ceilDiv 0 n = 0 := Nat.div_eq_of_lt (by omega)

/-- One group takes `n` bits, or what is left. -/
theorem ceilDiv_of_pos {m n : Nat} (hm : 1 ≤ m) (hn : 1 ≤ n) : ceilDiv m n = ceilDiv (m - n) n + 1 := by
  rcases Nat.lt_or_ge m n with hshort | hfull
  · rw [show m - n = 0 by omega, ceilDiv_zero hn]
    exact Nat.div_eq_of_lt_le (by omega) (by omega)
  · rw [ceilDiv, ceilDiv, ← Nat.add_div_right _ hn]
    congr 1
    omega

/-! ### Groups and padding (R55, R56) -/

@[simp] theorem padGroup_zero (bits : List Bit) : padGroup 0 bits = bits := by simp [padGroup]

/-- Padding behind the first `n` bits pads the rest. -/
theorem padGroup_add {n : Nat} (m : Nat) {bits : List Bit} (h : n ≤ bits.length) :
    padGroup (n + m) bits = bits.take n ++ padGroup m (bits.drop n) := by
  rw [padGroup, padGroup, ← List.append_assoc, List.take_append_drop, List.length_drop,
    show n + m - bits.length = m - (bits.length - n) by omega]

/-- The first group, padded if it is short, before the others, padded to whole groups, is the whole sequence so padded. -/
theorem padGroup_take_append {n : Nat} (hn : 1 ≤ n) (bits : List Bit) :
    padGroup n (bits.take n) ++ padGroup (ceilDiv (bits.length - n) n * n) (bits.drop n) =
      padGroup (n + ceilDiv (bits.length - n) n * n) bits := by
  rcases Nat.lt_or_ge bits.length n with hshort | hfull
  · rw [Nat.sub_eq_zero_of_le hshort.le, ceilDiv_zero hn, List.take_of_length_le hshort.le,
      List.drop_eq_nil_of_le hshort.le]
    simp
  · rw [padGroup_full (List.length_take_of_le hfull), padGroup_add _ hfull]

/-- A sequence has `ceil(M / N)` groups, and together they are the sequence padded with zeros to that many groups. -/
theorem groupsOf_spec {n fuel : Nat} {bits : List Bit} (hn : 1 ≤ n) (hfuel : bits.length ≤ fuel) :
    (groupsOf n fuel bits).length = ceilDiv bits.length n ∧
    (groupsOf n fuel bits).flatten = padGroup (ceilDiv bits.length n * n) bits := by
  fun_induction groupsOf n fuel bits with
  | case1 bits =>
    obtain rfl : bits = [] := List.length_eq_zero_iff.1 (by omega)
    simp [ceilDiv_zero hn]
  | case2 fuel => simp [ceilDiv_zero hn]
  | case3 fuel b rest ih =>
    have hpos : 1 ≤ (b :: rest).length := Nat.succ_pos _
    generalize b :: rest = bits at *
    obtain ⟨hlength, hflatten⟩ := ih (by rw [List.length_drop]; omega)
    rw [List.length_drop] at hlength hflatten
    rw [ceilDiv_of_pos hpos hn]
    constructor
    · rw [List.length_cons, hlength]
    · rw [List.flatten_cons, hflatten, padGroup_take_append hn, Nat.succ_mul, Nat.add_comm n]

/-- Every group has `N` bits. -/
theorem length_of_mem_groupsOf {n fuel : Nat} {bits grp : List Bit} (h : grp ∈ groupsOf n fuel bits) : grp.length = n := by
  fun_induction groupsOf n fuel bits with
  | case1 bits => exact absurd h List.not_mem_nil
  | case2 fuel => exact absurd h List.not_mem_nil
  | case3 fuel b rest ih =>
    rcases List.mem_cons.1 h with rfl | hlater
    · exact padGroup_length (List.length_take_le _ _)
    · exact ih hlater

end Sys2Proof.Machine
end

section
/-! PROOFS. Family 43_traceback: the decoded sequence is a most likely one (R145). By induction on the groups, the metric of a state
bounds the distance of every input that leads to it, and the input traced back from it has just that distance. -/

namespace Sys2Proof.Machine

/-! ### The forward pass, group by group (R126, R154) -/

@[simp] theorem forward_nil (c : Codec) : c.forward [] = (initialMetrics c.k, []) := rfl

theorem forward_concat (c : Codec) (groups : List (List Bit)) (grp : List Bit) :
    c.forward (groups ++ [grp]) = c.forwardStep (c.forward groups) grp := List.foldl_concat _ _ _ _

@[simp] theorem forward_concat_metrics (c : Codec) (groups : List (List Bit)) (grp : List Bit) :
    (c.forward (groups ++ [grp])).1 = (stepColumn c.k c.output (c.forward groups).1 grp).map Prod.fst := by
  rw [forward_concat, Codec.forwardStep]

@[simp] theorem forward_concat_trellis (c : Codec) (groups : List (List Bit)) (grp : List Bit) :
    (c.forward (groups ++ [grp])).2 =
      (c.forward groups).2 ++ [(stepColumn c.k c.output (c.forward groups).1 grp).map Prod.snd] := by
  rw [forward_concat, Codec.forwardStep]

theorem forward_trellis_length (c : Codec) (groups : List (List Bit)) : (c.forward groups).2.length = groups.length := by
  induction groups using List.reverseRecOn with
  | nil => rfl
  | append_singleton groups grp ih => simp [ih]

/-! ### The distance of an input to the received groups (R145) -/

theorem hd_comm (a b : List Bit) : hd a b = hd b a := by
  induction a generalizing b with
  | nil => cases b <;> rfl
  | cons x a ih =>
    cases b with
    | nil => rfl
    | cons y b => rw [hd, hd, ih, bne_comm]

/-- The Hamming distance between the encoding of an input and the received groups (R145). -/
def Codec.distance (c : Codec) (groups : List (List Bit)) (d : List Bit) : Nat := hd (c.encode d) groups.flatten

/-- A further input adds the branch metric of its transition (R113, R125). -/
theorem distance_concat (c : Codec) {groups : List (List Bit)} (hwidth : ∀ grp ∈ groups, grp.length = c.polys.length)
    {d : List Bit} (hlen : d.length = groups.length) (grp : List Bit) (b : Bit) :
    c.distance (groups ++ [grp]) (d ++ [b]) = c.distance groups d + hd grp (c.output (c.stateAfter d) b) := by
  have hlength : (c.encode d).length = groups.flatten.length := by
    rw [Codec.encode, encodeFrom_length, hlen, List.length_flatten, List.map_congr_left hwidth]
    simp
  have hbranch : c.encodeFrom (c.stateAfter d) [b] = c.output (c.stateAfter d) b := List.append_nil _
  rw [Codec.distance, encode_append, List.flatten_concat, hd_append hlength, hbranch, hd_comm grp, Codec.distance]

/-! ### No input is nearer than the metric of its state (R120, R126) -/

theorem leInf_addInf_addInf {a b : Metric} (h : leInf a b = true) (d : Nat) : leInf (addInf a d) (addInf b d) = true := by
  cases b with
  | inf => exact leInf_inf _
  | fin n =>
    obtain ⟨m, rfl, hle⟩ := eq_fin_of_leInf_fin h
    simpa using hle

/-- The metric of a state is at most the distance of every input that leads to it. -/
theorem metric_stateAfter_le_distance (c : Codec) (hk : 2 ≤ c.k) {groups : List (List Bit)}
    (hwidth : ∀ grp ∈ groups, grp.length = c.polys.length) {d : List Bit} (hlen : d.length = groups.length) :
    leInf (metricAt (c.forward groups).1 (c.stateAfter d)) (.fin (c.distance groups d)) = true := by
  induction groups using List.reverseRecOn generalizing d with
  | nil =>
    obtain rfl := List.length_eq_zero_iff.1 hlen
    rw [forward_nil, stateAfter_nil, metricAt_initial (numStates_pos c.k), if_pos rfl]
    rfl
  | append_singleton groups grp ih =>
    obtain ⟨hbefore, -⟩ := List.forall_mem_append.1 hwidth
    rcases List.eq_nil_or_concat' d with rfl | ⟨d, b, rfl⟩
    · simp at hlen
    · have hlen' : d.length = groups.length := by simpa using hlen
      rw [stateAfter_concat, distance_concat c hbefore hlen', forward_concat_metrics]
      exact leInf_trans (stepColumn_metric_le_candidate hk c.output _ grp b (stateAfter_lt c hk d))
        (leInf_addInf_addInf (ih hbefore hlen') _)

/-! ### The input traced back from a state has the distance its metric says (R126, R132, R141) -/

/-- The input the columns trace back from a final state. -/
def Codec.survivor (c : Codec) (groups : List (List Bit)) (last : Nat) : List Bit :=
  (walkBack c.k (c.forward groups).2.reverse last).1.reverse

theorem survivor_length (c : Codec) (groups : List (List Bit)) (last : Nat) :
    (c.survivor groups last).length = groups.length := by
  rw [Codec.survivor, List.length_reverse, walkBack_length, List.length_reverse, forward_trellis_length]

/-- A survivor is the survivor of the predecessor selected in the last step, and the input that leads on from there. -/
theorem survivor_concat (c : Codec) (groups : List (List Bit)) (grp : List Bit) {t : Nat} (ht : t < numStates c.k) :
    c.survivor (groups ++ [grp]) t =
      c.survivor groups (selectPredecessor c.k c.output (c.forward groups).1 grp t).2 ++ [topBit c.k t] := by
  rw [Codec.survivor, forward_concat_trellis, walkBack_concat, predecessorAt_stepColumn ht, Codec.survivor]

/-- The survivor of a state with a finite metric leads to that state, at the distance the metric says. -/
theorem survivor_spec (c : Codec) (hk : 2 ≤ c.k) {groups : List (List Bit)}
    (hwidth : ∀ grp ∈ groups, grp.length = c.polys.length) {t m : Nat} (ht : t < numStates c.k)
    (hm : metricAt (c.forward groups).1 t = .fin m) :
    c.stateAfter (c.survivor groups t) = t ∧ c.distance groups (c.survivor groups t) = m := by
  induction groups using List.reverseRecOn generalizing t m with
  | nil =>
    rw [forward_nil, metricAt_initial ht] at hm
    split at hm
    · next hzero => exact ⟨hzero.symm, Metric.fin.inj hm⟩
    · exact absurd hm nofun
  | append_singleton groups grp ih =>
    obtain ⟨hbefore, -⟩ := List.forall_mem_append.1 hwidth
    rw [forward_concat_metrics, metricAt_stepColumn ht] at hm
    rw [survivor_concat c groups grp ht]
    obtain ⟨hpred, hcand, -, -⟩ := selectPredecessor_spec c.k c.output (c.forward groups).1 grp t
    generalize selectPredecessor c.k c.output (c.forward groups).1 grp t = r at *
    have hlt : r.2 < numStates c.k := predecessor_lt hk hpred
    rw [hm, candidate] at hcand
    cases hold : metricAt (c.forward groups).1 r.2 with
    | inf => rw [hold] at hcand; exact absurd hcand nofun
    | fin m' =>
      rw [hold, addInf_fin, Metric.fin.injEq] at hcand
      obtain ⟨hstate, hdist⟩ := ih hbefore hlt hold
      constructor
      · rw [stateAfter_concat, hstate, (nextState_eq_iff _ hk hlt ht).2 ⟨rfl, hpred⟩]
      · rw [distance_concat c hbefore (survivor_length c groups _), hstate, hdist, hcand]

/-! ### The final scan (R141, R145) -/

/-- The final scan selects a state whose survivor has the selected metric as its distance, and no input is nearer. -/
theorem survivor_bestState_nearest (c : Codec) (hk : 2 ≤ c.k) {groups : List (List Bit)}
    (hwidth : ∀ grp ∈ groups, grp.length = c.polys.length) :
    let best := bestState c.k (c.forward groups).1
    metricAt (c.forward groups).1 best = .fin (c.distance groups (c.survivor groups best)) ∧
    ∀ d : List Bit, d.length = groups.length → c.distance groups (c.survivor groups best) ≤ c.distance groups d := by
  intro best
  obtain ⟨hbest, hmin, -⟩ := bestState_firstMinimum c.k (c.forward groups).1
  have hle : ∀ d : List Bit, d.length = groups.length →
      leInf (metricAt (c.forward groups).1 best) (.fin (c.distance groups d)) = true := fun d hlen =>
    leInf_trans (hmin _ (stateAfter_lt c hk d)) (metric_stateAfter_le_distance c hk hwidth hlen)
  obtain ⟨m, hm, -⟩ := eq_fin_of_leInf_fin (hle (List.replicate groups.length false) List.length_replicate)
  obtain ⟨-, hdist⟩ := survivor_spec c hk hwidth hbest hm
  rw [hdist]
  refine ⟨hm, fun d hlen => ?_⟩
  have hledist := hle d hlen
  rw [hm] at hledist
  exact of_decide_eq_true hledist

/-- Settles O52: the decoded sequence is the survivor of the state the final scan selects. -/
theorem decodingIsMaximumLikelihood : Obligations.DecodingIsMaximumLikelihood := by
  unfold Obligations.DecodingIsMaximumLikelihood
  intro c r hc
  have hn : 1 ≤ c.polys.length := List.length_pos_iff.2 hc.polys_ne
  obtain ⟨hcount, hpadded⟩ := groupsOf_spec hn (le_refl r.length)
  have hwidth : ∀ grp ∈ c.groups r, grp.length = c.polys.length := fun _ => length_of_mem_groupsOf
  have hlength : (c.decode r).length = (c.groups r).length := survivor_length c _ _
  obtain ⟨hmetric, hnearest⟩ := survivor_bestState_nearest c hc.k_ge hwidth
  exact ⟨hpadded, hlength.trans hcount, hmetric, fun d hlen => hnearest d (hlen.trans hlength)⟩

end Sys2Proof.Machine
end

section
/-! PROOFS. Family 44_public_operations: the run of a command sequence, command by command, in every mode; a fault lasts to the
end of the run (R179, R203). -/

namespace Sys2Proof

/-! ### Counts and their bounds (R9, R174) -/

theorem Bound.admits_of_le {b : Bound} {count larger : Nat} (hle : count ≤ larger) (h : b.Admits larger) :
    b.Admits count := by
  cases b with
  | unbounded => rfl
  | atMost m => exact decide_eq_true (hle.trans (of_decide_eq_true h))

/-- A count at its bound cannot grow (R174). -/
theorem Bound.not_admits_of_lt {b : Bound} {count larger : Nat} (hfull : b = .atMost count) (hlt : count < larger) :
    ¬ b.Admits larger := by
  subst hfull
  exact fun h => hlt.not_ge (of_decide_eq_true h)

namespace Machine

/-! ### The run of a sequence, from its first command on (R61, R203) -/

/-- The run of a sequence of moves begins with its first one. -/
theorem runMoves_cons {move : HostMove} {s t : State} (rest : List HostMove) (hp : s.pending = [])
    (h : runMove move s = .next t) : runMoves (move :: rest) s = runMoves rest t := by
  have hq : (s.issue [move]).pending = [move] := by rw [issue_pending, hp, List.nil_append]
  have htaken : { s.issue [move] with pending := [] } = s := by rw [← hp]; rfl
  have hfirst : runMoves [move] s = .next t := by
    rw [runMoves_eq, hq, List.length_singleton, runSteps, step_move hq, htaken, h]; rfl
  exact movesTakeEffectInOrder s t [move] rest hfirst

/-- A word issued to a block in `FAILED` is ignored, whatever it spells (R179). -/
theorem runWord_failed {s : State} (hf : s.mode = .failed) (w : Word) : runWord w s = .next s := by
  unfold runWord
  split
  · rw [exec_eq_runCommand, runCommand_failed hf]
  · exact if_pos hf

/-- A sequence of commands issued to a block in `FAILED` is ignored, whatever its words spell (R179). -/
theorem runCommands_of_failed {s : State} (hf : s.mode = .failed) (hp : s.pending = []) (commands : List Instr) :
    runCommands commands s = .next s := by
  induction commands with
  | nil => exact runCommands_nil hp
  | cons i rest ih =>
    have hignored : runMove (.command (encode i)) s = .next s := runWord_failed hf (encode i)
    exact (runMoves_cons (commandMoves rest) hp hignored).trans ih

/-- The run of a sequence whose first command is accepted and passes its checks goes on from what that command leaves. -/
theorem runCommands_cons_of_accepted {i : Instr} {s t : State} (rest : List Instr) (hp : s.pending = [])
    (hm : s.mode = i.acceptedIn) (hd : decode (encode i) = .command i) (hb : commandBody i s = .ok t) :
    runCommands (i :: rest) s = runCommands rest t :=
  runCommands_cons rest hp hd (exec_of_ok hm hb)

/-- The run of a sequence whose first command fails its checks ends in that command's fault (R176, R179). -/
theorem runCommands_cons_of_error {i : Instr} {s : State} {c : Cause} (rest : List Instr) (hp : s.pending = [])
    (hm : s.mode = i.acceptedIn) (hd : decode (encode i) = .command i) (hb : commandBody i s = .error c) :
    runCommands (i :: rest) s = .next (raise c (encode i) s) := by
  rw [runCommands_cons rest hp hd (exec_of_error hm hb)]
  exact runCommands_of_failed (raise_mode c (encode i) s) hp rest

/-- A block that a fault of this cause has stopped and that has taken all moves issued (R176). -/
structure FailedWith (c : Cause) (t : State) : Prop where
  failed : t.mode = .failed
  err : t.err = c.code
  idle : t.pending = []

theorem failedWith_raise (c : Cause) (w : Word) {s : State} (hp : s.pending = []) : FailedWith c (raise c w s) :=
  ⟨rfl, rfl, hp⟩

end Machine

end Sys2Proof
end

section
/-! PROOFS. Family 44_public_operations: the expansion of CONSTRUCT constructs the codec, or fails with the cause of the first
failing check (R97, R151). -/

namespace Sys2Proof.Machine

/-! ### When a construction fails (R97) -/

theorem checkPolys_eq_none_iff {c : Config} {k count : Nat} {ps : List Nat} (h : c.nmax.Admits count) :
    checkPolys c k count ps = none ↔
      count + ps.length ≠ 0 ∧ (∀ p ∈ ps, 1 ≤ p ∧ p < 2 ^ k) ∧ c.nmax.Admits (count + ps.length) := by
  induction ps generalizing count with
  | nil => simpa [checkPolys] using fun _ => h
  | cons p rest ih =>
    have hcount : count + (p :: rest).length = count + 1 + rest.length := by rw [List.length_cons]; omega
    rw [checkPolys, hcount, List.forall_mem_cons]
    split_ifs with hzero hwide hfull
    · simp [hzero]
    · exact iff_of_false nofun fun ⟨_, ⟨⟨_, hp⟩, _⟩, _⟩ => hwide.not_gt hp
    · exact iff_of_false nofun fun ⟨_, _, hadm⟩ => Bound.not_admits_of_lt (isFull_iff.1 hfull) (by omega) hadm
    · have hroom := Bound.admits_succ h (isFull_false_iff.1 (Bool.eq_false_iff.2 hfull))
      have hp : 1 ≤ p ∧ p < 2 ^ k := ⟨Nat.one_le_iff_ne_zero.2 hzero, Nat.not_le.1 hwide⟩
      rw [ih hroom, and_iff_right hp]

/-- A construction is a codec exactly when the constraint length and the list of polynomials are valid (R97, R151). -/
theorem constructCause_eq_none_iff {c : Config} {k : Nat} {polys : List Nat} :
    constructCause c k polys = none ↔
      2 ≤ k ∧ k ≤ c.kmax ∧ polys ≠ [] ∧ (∀ p ∈ polys, 1 ≤ p ∧ p < 2 ^ k) ∧ c.nmax.Admits polys.length := by
  unfold constructCause
  split_ifs with hrange
  · exact iff_of_false nofun fun ⟨h2, hmax, _⟩ => by omega
  · have h2 : 2 ≤ k := by omega
    have hmax : k ≤ c.kmax := by omega
    rw [checkPolys_eq_none_iff (Bound.admits_zero _), Nat.zero_add, and_iff_right h2, and_iff_right hmax,
      Ne, List.length_eq_zero_iff]

/-! ### The commands make the checks in the order of R97 -/

theorem checkPolys_nil_of_error {s : State} {c : Cause} (h : commitConfig s = .error c) :
    checkPolys s.config s.k s.n [] = some c := by
  obtain ⟨rfl, hn⟩ : c = .emptyPolySet ∧ s.n = 0 := commandBody_error (i := .cfgCommit) h
  rw [checkPolys, if_pos hn]

theorem checkPolys_nil_of_ok {s t : State} (h : commitConfig s = .ok t) : checkPolys s.config s.k s.n [] = none := by
  rw [checkPolys, if_neg (commitConfig_ok.1 h).1]

theorem checkPolys_cons_of_error {s : State} {p : Nat} {c : Cause} (h : addPoly p s = .error c) (rest : List Nat) :
    checkPolys s.config s.k s.n (p :: rest) = some c := by
  rw [checkPolys]
  rcases commandBody_error (i := .cfgPoly p) h with ⟨rfl, h0⟩ | ⟨rfl, h0, hwide⟩ | ⟨rfl, h0, hp, hfull⟩
  · rw [if_pos h0]
  · rw [if_neg h0, if_pos hwide]
  · rw [if_neg h0, if_neg (Nat.not_le.2 hp), if_pos (isFull_iff.2 hfull)]

theorem checkPolys_cons_of_ok {s t : State} {p : Nat} (h : addPoly p s = .ok t) (rest : List Nat) :
    checkPolys s.config s.k s.n (p :: rest) = checkPolys t.config t.k t.n rest := by
  obtain ⟨h0, hp, hroom, rfl⟩ := addPoly_ok.1 h
  rw [checkPolys, if_neg h0, if_neg (Nat.not_le.2 hp), if_neg (by rw [isFull_iff]; exact hroom)]
  rfl

/-! ### The polynomials delivered (R96) -/

/-- The state after the polynomials of a list have been stored, one after another (R96). -/
def State.deliver (ps : List Nat) (s : State) : State := ps.foldl (fun s p => s.appendPoly p) s

/-- After CFG.BEGIN exactly the polynomials stored since are there; before the first one `G` is as it was (R23, R96). -/
theorem deliver_eq (ps : List Nat) (s : State) :
    State.deliver ps { s with n := 0 } = { s with g := if ps = [] then s.g else ps, n := ps.length } := by
  induction ps using List.reverseRecOn with
  | nil => rfl
  | append_singleton ps p ih =>
    have hstored : (if ps = [] then s.g else ps).take ps.length = ps := by
      split
      · next hnil => rw [hnil]; rfl
      · exact List.take_length
    rw [State.deliver, List.foldl_concat, ← State.deliver, ih, State.appendPoly, State.polys]
    simp [hstored]

/-- The commands after CFG.BEGIN fail with the cause that `checkPolys` names, or commit the polynomials delivered. -/
theorem runCommands_polys {s : State} {ps : List Nat} (hm : s.mode = .configuring) (hp : s.pending = [])
    (hw : ∀ p ∈ ps, p < 2 ^ 24) :
    ∃ t, runCommands (ps.map .cfgPoly ++ [.cfgCommit]) s = .next t ∧
      (∀ c, checkPolys s.config s.k s.n ps = some c → FailedWith c t) ∧
      (checkPolys s.config s.k s.n ps = none → commitConfig (s.deliver ps) = .ok t) := by
  induction ps generalizing s with
  | nil =>
    cases hb : commitConfig s with
    | error c =>
      refine ⟨_, runCommands_cons_of_error (i := .cfgCommit) [] hp hm rfl hb, ?_⟩
      rw [checkPolys_nil_of_error hb]
      exact ⟨fun _ hc => Option.some.inj hc ▸ failedWith_raise c _ hp, nofun⟩
    | ok t =>
      have hidle : t.pending = [] := (commandBody_keeps (i := .cfgCommit) hb).2.trans hp
      refine ⟨t, (runCommands_cons_of_accepted (i := .cfgCommit) [] hp hm rfl hb).trans (runCommands_nil hidle), ?_⟩
      rw [checkPolys_nil_of_ok hb]
      exact ⟨nofun, fun _ => hb⟩
  | cons p rest ih =>
    obtain ⟨hwp, hwrest⟩ := List.forall_mem_cons.1 hw
    have hspelled : decode (encode (.cfgPoly p)) = .command (.cfgPoly p) := decodeOfEncode _ (decide_eq_true hwp)
    cases hb : addPoly p s with
    | error c =>
      refine ⟨_, runCommands_cons_of_error (i := .cfgPoly p) _ hp hm hspelled hb, ?_⟩
      rw [checkPolys_cons_of_error hb]
      exact ⟨fun _ hc => Option.some.inj hc ▸ failedWith_raise c _ hp, nofun⟩
    | ok t =>
      have hrun := runCommands_cons_of_accepted (i := .cfgPoly p) (rest.map .cfgPoly ++ [.cfgCommit]) hp hm hspelled hb
      rw [List.map_cons, List.cons_append, hrun, checkPolys_cons_of_ok hb]
      obtain ⟨-, -, -, rfl⟩ := addPoly_ok.1 hb
      exact ih hm hp hwrest

/-! ### The whole expansion (R81, R151) -/

/-- The expansion of CONSTRUCT fails with the cause that `constructCause` names, or commits the polynomials delivered. -/
theorem runCommands_construct {s : State} {k : Nat} {polys : List Nat} (hm : s.mode = .unconfigured)
    (hp : s.pending = []) (hk : k < 2 ^ 24) (hw : ∀ p ∈ polys, p < 2 ^ 24) :
    ∃ t, runCommands (constructCommands k polys) s = .next t ∧
      (∀ c, constructCause s.config k polys = some c → FailedWith c t) ∧
      (constructCause s.config k polys = none →
        commitConfig (State.deliver polys { s with k := k, n := 0, mode := .configuring }) = .ok t) := by
  have hspelled : decode (encode (.cfgBegin k)) = .command (.cfgBegin k) := decodeOfEncode _ (decide_eq_true hk)
  unfold constructCause
  split_ifs with hrange
  · refine ⟨_, runCommands_cons_of_error _ hp hm hspelled (commandBody_cfgBegin_badConstraint hrange), ?_, nofun⟩
    exact fun _ hc => Option.some.inj hc ▸ failedWith_raise .badConstraint _ hp
  · have hb := beginConfig_ok.2 ⟨(by omega : 2 ≤ k), (by omega : k ≤ s.config.kmax), rfl⟩
    have hrun := runCommands_cons_of_accepted (i := .cfgBegin k) (polys.map .cfgPoly ++ [.cfgCommit]) hp hm hspelled hb
    rw [constructCommands, List.cons_append, hrun]
    exact runCommands_polys rfl hp hw

/-- Settles O47: the commands make the checks of R97 in its order, and when all pass CFG.COMMIT builds the table of the
polynomials delivered. -/
theorem constructCommandsConstruct : Obligations.ConstructCommandsConstruct := by
  unfold Obligations.ConstructCommandsConstruct
  intro s k polys hm hp hk hw valid
  have hvalid : constructCause s.config k polys = none ↔ valid := constructCause_eq_none_iff
  obtain ⟨t, hrun, hfails, hcommits⟩ := runCommands_construct hm hp hk hw
  refine ⟨fun hv => ?constructed, fun hv => ?failed⟩
  case constructed =>
    have hcommit := hcommits (hvalid.2 hv)
    obtain ⟨-, -, hne, -, -⟩ := hv
    have hdelivered := deliver_eq polys { s with k := k, mode := .configuring }
    rw [if_neg hne] at hdelivered
    rw [hdelivered] at hcommit
    obtain ⟨-, rfl⟩ := commitConfig_ok.1 hcommit
    refine ⟨_, hrun, rfl, outputTable_length _ _, fun i hi => ⟨?width, fun j hj => outputTable_polys_get le_rfl hi hj⟩,
      freshMetrics_initialMetrics k⟩
    case width => rw [outputTable_getD _ hi, List.length_map]; exact polys_length_of_le le_rfl
  case failed =>
    obtain ⟨c, hc⟩ := Option.ne_none_iff_exists'.1 fun h => hv (hvalid.1 h)
    obtain ⟨hfailed, herr, hidle⟩ := hfails c hc
    exact ⟨t, c, hrun, hfailed, hc, herr, runCommands_of_failed hfailed hidle⟩

end Sys2Proof.Machine
end

section
/-! PROOFS. Family 44_public_operations: the expansion of ENCODE appends exactly `Encode(u)` (R153). -/

namespace Sys2Proof.Machine

/-! ### The table of a `READY` block is the output function of its codec (R91, R93) -/

/-- For every state and input the table gives the output of the block's codec. -/
def State.TableIsCodecOutput (s : State) : Prop := ∀ x < numStates s.k, ∀ b, s.output x b = s.codec.output x b

theorem tableIsCodecOutput_of_invariant {s : State} (h : Invariant s) (hm : s.mode = .ready) : s.TableIsCodecOutput := by
  intro x hx b
  have hregs := h.registers_ok (.inr hm)
  have hready := h.ready_ok hm
  have hk : 1 ≤ s.k := by have := hregs.k_ge; omega
  have hlen : s.codec.polys.length = s.n := hregs.g_length (Nat.one_le_iff_ne_zero.1 hready.n_pos)
  refine List.ext_getElem? fun j => ?_
  rcases Nat.lt_or_ge j s.n with hj | hj
  · rw [hready.output_get hk b hx hj, codecOutput_get _ _ _ (by omega)]
    rfl
  · rw [List.getElem?_eq_none (by rwa [hready.output_length hk b hx]),
      List.getElem?_eq_none (by rw [codecOutput_length]; omega)]

/-! ### The bits of an encoding, one after another (R112, R153) -/

/-- A run of ENC.BIT commands appends the codec's outputs, from the state `ES` holds (R153). -/
theorem runCommands_encBits {s : State} {u : List Bit} (hs : AwaitsCommand s) (hk : 2 ≤ s.k)
    (htable : s.TableIsCodecOutput) (hes : s.es < numStates s.k) :
    runCommands (u.map .encBit) s = .next { s with
      es := u.foldl (nextState s.k) s.es, encOut := s.encOut ++ s.codec.encodeFrom s.es u } := by
  induction u generalizing s with
  | nil =>
    rw [Codec.encodeFrom, List.append_nil]
    exact runCommands_nil hs.idle
  | cons b u ih =>
    have hafter := ih (s := encodeBit b s) ⟨hs.ready, hs.idle⟩ hk htable (nextState_lt b hk hes)
    rw [encodeBit_encOut, htable _ hes, List.append_assoc] at hafter
    exact (runCommands_cons_of_ok (i := .encBit b) _ hs rfl rfl).trans hafter

/-- The expansion of ENCODE, issued to a `READY` block (R153). -/
theorem runCommands_encode {s : State} (u : List Bit) (hinv : Invariant s) (hs : AwaitsCommand s) :
    runCommands (encodeCommands u) s =
      .next { s with es := s.codec.stateAfter u, encOut := s.encOut ++ s.codec.encode u } := by
  have hk : 2 ≤ s.k := (hinv.registers_ok (.inr hs.ready)).k_ge
  have htable := tableIsCodecOutput_of_invariant hinv hs.ready
  exact (runCommands_cons_of_ok (i := .encStart) _ hs rfl rfl).trans
    (runCommands_encBits (s := s.startEncoder) ⟨hs.ready, hs.idle⟩ hk htable (numStates_pos s.k))

/-- Settles O48: each ENC.BIT appends the output of the codec, whose table `OUT` is, and other commands of `READY` change neither
the encoder context nor its stream (R65). -/
theorem encodeCommandsEncode : Obligations.EncodeCommandsEncode := by
  unfold Obligations.EncodeCommandsEncode
  intro s u hinv hm hp
  have hrun := runCommands_encode u hinv ⟨hm, hp⟩
  refine ⟨hrun, fun commands t hc hfilter ht hready => ?interleaved⟩
  obtain ⟨⟨e, he, hout, -⟩, -⟩ := encoderAndDecoderAreIndependent s t commands hm hp hc ht hready
  rw [hfilter, hrun, Host.Outcome.next.injEq] at he
  rw [← hout, ← he]

end Sys2Proof.Machine
end

section
/-! PROOFS. Family 44_public_operations: the expansion of DECODE appends exactly `Decode(r)`, or faults when its columns are more
than `TMAX` (R154, R174). -/

namespace Sys2Proof.Machine

/-! ### The groups of a received sequence, one after another (R55, R56) -/

@[simp] theorem groupsOf_nil (n fuel : Nat) : groupsOf n fuel [] = [] := by cases fuel <;> rfl

/-- A complete group stands before the groups of the rest. -/
theorem groupsOf_append {n : Nat} {grp : List Bit} (fuel : Nat) (rest : List Bit) (hne : grp ≠ [])
    (hlen : grp.length = n) : groupsOf n (fuel + 1) (grp ++ rest) = grp :: groupsOf n fuel rest := by
  obtain ⟨b, bits, rfl⟩ := List.exists_cons_of_ne_nil hne
  rw [List.cons_append, groupsOf, ← List.cons_append, List.take_left' hlen, List.drop_left' hlen, padGroup_full hlen]

/-- A short group is padded and is the only one. -/
theorem groupsOf_short {n fuel : Nat} {grp : List Bit} (hne : grp ≠ []) (hshort : grp.length ≤ n)
    (hfuel : grp.length ≤ fuel) : groupsOf n fuel grp = [padGroup n grp] := by
  obtain ⟨b, bits, rfl⟩ := List.exists_cons_of_ne_nil hne
  obtain ⟨fuel, rfl⟩ : ∃ f, fuel = f + 1 := ⟨fuel - 1, by rw [List.length_cons] at hfuel; omega⟩
  rw [groupsOf, List.take_of_length_le hshort, List.drop_eq_nil_of_le hshort, groupsOf_nil]

/-! ### A trellis step is a step of `Decode` (R126, R154) -/

/-- A trellis step looks at the outputs of states only. -/
theorem stepColumn_congr {k : Nat} (hk : 2 ≤ k) {f g : Nat → Bit → List Bit}
    (h : ∀ x < numStates k, ∀ b, f x b = g x b) (pm : List Metric) (grp : List Bit) : stepColumn k f pm grp = stepColumn k g pm grp := by
  refine List.map_congr_left fun t _ => ?_
  rw [selectPredecessor, selectPredecessor, candidate, candidate, candidate, candidate,
    h _ (pred0_lt hk), h _ (pred1_lt hk)]

theorem forwardStep_eq_groupTaken {s : State} (hk : 2 ≤ s.k) (htable : s.TableIsCodecOutput) (grp : List Bit) :
    s.codec.forwardStep (s.pm, s.tr) grp = ((groupTaken grp s).pm, (groupTaken grp s).tr) := by
  rw [groupTaken_pm, groupTaken_tr, stepColumn_congr hk htable]
  rfl

/-- What `Decode` gives when it goes on with these groups from the metrics and columns the block holds (R154). -/
def State.decodeOn (groups : List (List Bit)) (s : State) : List Bit :=
  let context := groups.foldl s.codec.forwardStep (s.pm, s.tr)
  tracebackBits s.k context.1 context.2

theorem decodeOn_nil (s : State) : s.decodeOn [] = tracebackBits s.k s.pm s.tr := rfl

theorem decodeOn_cons {s : State} (hk : 2 ≤ s.k) (htable : s.TableIsCodecOutput) (grp : List Bit)
    (groups : List (List Bit)) : s.decodeOn (grp :: groups) = (groupTaken grp s).decodeOn groups := by
  rw [State.decodeOn, List.foldl_cons, forwardStep_eq_groupTaken hk htable]
  rfl

/-! ### What the rest of a decode call leaves (R142, R174) -/

/-- What is left of `s` when the rest of its decode call takes these groups: the decoded bits and a fresh decoder context when
`TMAX` admits their columns, else `CAPACITY` with nothing appended. -/
structure DecodeOutcome (s : State) (groups : List (List Bit)) (t : State) : Prop where
  fits : s.config.tmax.Admits (s.tr.length + groups.length) → t = { s with
    gb := [], pm := initialMetrics s.k, tr := [], decOut := s.decOut ++ s.decodeOn groups }
  full : ¬ s.config.tmax.Admits (s.tr.length + groups.length) → FailedWith .capacity t ∧ t.decOut = s.decOut

/-- The traceback and a fresh decoder context, when no group is pending (R142). -/
theorem decodeOutcome_nil {s : State} (hroom : s.config.tmax.Admits s.tr.length) :
    DecodeOutcome s [] (traceback s).startDecoder :=
  ⟨fun _ => rfl, fun h => absurd hroom h⟩

/-- A group that finds the trellis full faults (R126, R174). -/
theorem decodeOutcome_cons_full {s : State} (hfull : s.config.tmax = .atMost s.tr.length) (hp : s.pending = [])
    (grp : List Bit) (groups : List (List Bit)) (w : Word) : DecodeOutcome s (grp :: groups) (raise .capacity w s) :=
  ⟨fun h => absurd h (Bound.not_admits_of_lt hfull (by simp)), fun _ => ⟨failedWith_raise _ w hp, rfl⟩⟩

/-- A group that finds room takes its trellis step, and the others follow (R126). -/
theorem decodeOutcome_cons {s t : State} {grp : List Bit} {groups : List (List Bit)} (hk : 2 ≤ s.k)
    (htable : s.TableIsCodecOutput) (h : DecodeOutcome (groupTaken grp s) groups t) :
    DecodeOutcome s (grp :: groups) t := by
  have hcolumns : (groupTaken grp s).tr.length + groups.length = s.tr.length + (grp :: groups).length := by
    rw [groupTaken_tr, List.length_append, List.length_singleton, List.length_cons]; omega
  obtain ⟨hfits, hfull⟩ := h
  rw [hcolumns, ← decodeOn_cons hk htable] at hfits
  rw [hcolumns] at hfull
  exact ⟨hfits, hfull⟩

/-! ### The run of a decode call (R84, R154) -/

theorem admits_groupTaken {s : State} (hroom : s.config.tmax.Admits s.tr.length)
    (hfull : s.config.tmax ≠ .atMost s.tr.length) (grp : List Bit) :
    (groupTaken grp s).config.tmax.Admits (groupTaken grp s).tr.length := by
  rw [groupTaken_tr, List.length_append, List.length_singleton]
  exact Bound.admits_succ hroom hfull

/-- DEC.TRACE takes the short group pending, if there is one (R142). -/
theorem runCommands_decTrace {s : State} (hs : AwaitsCommand s) (hk : 2 ≤ s.k) (htable : s.TableIsCodecOutput)
    (hgb : s.gb.length < s.n) {fuel : Nat} (hfuel : s.gb.length ≤ fuel) (hroom : s.config.tmax.Admits s.tr.length) :
    ∃ t, runCommands [.decTrace] s = .next t ∧ DecodeOutcome s (groupsOf s.n fuel s.gb) t := by
  have hrun : ∀ t, endDecode s = .ok t → runCommands [.decTrace] s = .next t := fun t hb =>
    (runCommands_cons_of_ok (i := .decTrace) [] hs rfl hb).trans
      (runCommands_nil ((commandBody_keeps (i := .decTrace) hb).2.trans hs.idle))
  by_cases hempty : s.gb = []
  · rw [hempty, groupsOf_nil]
    exact ⟨_, hrun _ (endDecode_ok.2 ⟨s, flushGroup_ok.2 (.inl ⟨hempty, rfl⟩), rfl⟩), decodeOutcome_nil hroom⟩
  · rw [groupsOf_short hempty hgb.le hfuel]
    by_cases hfull : s.config.tmax = .atMost s.tr.length
    · exact ⟨_, runCommands_cons_of_error (i := .decTrace) [] hs.idle hs.ready rfl
        (commandBody_decTrace_full hempty hfull),
        decodeOutcome_cons_full hfull hs.idle _ _ _⟩
    · exact ⟨_, hrun _ (endDecode_ok.2 ⟨_, flushGroup_ok.2 (.inr ⟨hempty, hfull, rfl⟩), rfl⟩),
        decodeOutcome_cons hk htable (decodeOutcome_nil (admits_groupTaken hroom hfull _))⟩

/-- The rest of a decode call takes the groups of the bits pending and the bits to come, by induction on the latter. -/
theorem runCommands_decodeRest {s : State} {r : List Bit} {fuel : Nat} (hs : AwaitsCommand s) (hk : 2 ≤ s.k)
    (htable : s.TableIsCodecOutput) (hgb : s.gb.length < s.n) (hfuel : s.gb.length + r.length ≤ fuel)
    (hroom : s.config.tmax.Admits s.tr.length) :
    ∃ t, runCommands (r.map .decBit ++ [.decTrace]) s = .next t ∧
      DecodeOutcome s (groupsOf s.n fuel (s.gb ++ r)) t := by
  induction r generalizing s fuel with
  | nil => rw [List.append_nil]; exact runCommands_decTrace hs hk htable hgb hfuel hroom
  | cons b r ih =>
    rw [List.append_cons s.gb b r, List.map_cons, List.cons_append]
    rw [List.length_cons] at hfuel
    have hlen : (s.gb ++ [b]).length = s.gb.length + 1 := by rw [List.length_append, List.length_singleton]
    by_cases hshort : s.gb.length + 1 < s.n
    · rw [runCommands_cons_of_ok (i := .decBit b) _ hs rfl (receiveBit_ok.2 (.inl ⟨hshort, rfl⟩))]
      obtain ⟨t, hrun, hout⟩ := ih (s := { s with gb := s.gb ++ [b] }) (fuel := fuel) ⟨hs.ready, hs.idle⟩ hk htable
        (hlen.symm ▸ hshort) (by simp only [hlen]; omega) hroom
      exact ⟨t, hrun, hout.fits, hout.full⟩
    · have hlast : s.gb.length + 1 = s.n := by omega
      obtain ⟨fuel, rfl⟩ : ∃ f, fuel = f + 1 := ⟨fuel - 1, by omega⟩
      rw [groupsOf_append fuel r (by simp) (hlen.trans hlast)]
      by_cases hfull : s.config.tmax = .atMost s.tr.length
      · exact ⟨_, runCommands_cons_of_error (i := .decBit b) _ hs.idle hs.ready (decode_encode_of_ready rfl)
          (commandBody_decBit_full hlast hfull), decodeOutcome_cons_full hfull hs.idle _ _ _⟩
      · rw [runCommands_cons_of_ok (i := .decBit b) _ hs rfl (receiveBit_ok.2 (.inr ⟨hlast.ge, hfull, rfl⟩))]
        obtain ⟨t, hrun, hout⟩ := ih (s := groupTaken (s.gb ++ [b]) s) (fuel := fuel) ⟨hs.ready, hs.idle⟩ hk htable
          (by simp only [groupTaken_gb, groupTaken_n, List.length_nil]; omega)
          (by simp only [groupTaken_gb, List.length_nil]; omega) (admits_groupTaken hroom hfull _)
        exact ⟨t, hrun, decodeOutcome_cons hk htable hout⟩

/-- The expansion of DECODE, issued to a `READY` block (R154). -/
theorem runCommands_decode {s : State} (r : List Bit) (hinv : Invariant s) (hs : AwaitsCommand s) :
    ∃ t, runCommands (decodeCommands r) s = .next t ∧
      (s.config.tmax.Admits (ceilDiv r.length s.n) → t = { s with
        gb := [], pm := initialMetrics s.k, tr := [], decOut := s.decOut ++ s.codec.decode r }) ∧
      (¬ s.config.tmax.Admits (ceilDiv r.length s.n) → FailedWith .capacity t ∧ t.decOut = s.decOut) := by
  have hregs := hinv.registers_ok (.inr hs.ready)
  have hn := (hinv.ready_ok hs.ready).n_pos
  have hcount : s.g.length = s.n := hregs.g_length (Nat.one_le_iff_ne_zero.1 hn)
  have htable := tableIsCodecOutput_of_invariant hinv hs.ready
  have hgroups : s.codec.groups r = groupsOf s.n r.length r := by rw [← hcount]; rfl
  obtain ⟨t, hrun, hfits, hfull⟩ := runCommands_decodeRest (s := s.startDecoder) (r := r) (fuel := r.length)
    ⟨hs.ready, hs.idle⟩ hregs.k_ge htable hn (by simp) (Bound.admits_zero _)
  have hcolumns : s.startDecoder.tr.length + (groupsOf s.n r.length r).length = ceilDiv r.length s.n := by
    rw [(groupsOf_spec hn le_rfl).1, startDecoder_tr, List.length_nil, Nat.zero_add]
  simp only [startDecoder_n, startDecoder_gb, List.nil_append, hcolumns] at hfits hfull
  refine ⟨t, (runCommands_cons_of_ok (i := .decStart) _ hs rfl rfl).trans hrun, fun h => ?_, hfull⟩
  rw [hfits h, Codec.decode, hgroups]
  rfl

/-! ### Other commands of `READY` in between (R65) -/

theorem SameButEncoder.symm {a s : State} (h : SameButEncoder a s) : SameButEncoder s a := by
  obtain ⟨_, _, _, rfl⟩ := h
  exact ⟨s.res, s.es, s.encOut, rfl⟩

theorem SameButEncoder.raise {a s : State} (h : SameButEncoder a s) (c : Cause) (w : Word) :
    SameButEncoder (raise c w a) (raise c w s) := by
  obtain ⟨res, es, encOut, rfl⟩ := h
  exact ⟨res, es, encOut, rfl⟩

/-- Of the commands of `READY` only the decoder's can fail their checks, and `CAPACITY` is their only cause (R174). -/
theorem readyBody_error {i : Instr} {s : State} {c : Cause} (hi : i.acceptedIn = .ready)
    (h : commandBody i s = .error c) : isDecCommand i = true ∧ c = .capacity := by
  have herr := commandBody_error h
  cases i with
  | cfgBegin k => nomatch hi
  | cfgPoly p => nomatch hi
  | cfgCommit => nomatch hi
  | decBit b => exact ⟨rfl, herr.1⟩
  | decFlush => exact ⟨rfl, herr.1⟩
  | decTrace => exact ⟨rfl, herr.1⟩
  | cfgNpar => exact herr.elim
  | encStart => exact herr.elim
  | encBit b => exact herr.elim
  | decStart => exact herr.elim

/-- Whether a command's checks fail does not depend on `RES` and the encoder context (R65). -/
theorem SameButEncoder.commandBody_error {i : Instr} {a s : State} {c : Cause} (hi : i.acceptedIn = .ready)
    (hb : commandBody i s = .error c) (h : SameButEncoder a s) : commandBody i a = .error c := by
  obtain ⟨hdec, rfl⟩ := readyBody_error hi hb
  cases ha : commandBody i a with
  | ok v =>
    obtain ⟨u, hu, -⟩ := followsKept_decoder.kept hdec ha h.symm
    exact nomatch hb.symm.trans hu
  | error c => rw [(readyBody_error hi ha).2]

/-- A run of commands of `READY` ends as the run of its DEC commands alone, but for `RES` and the encoder context, whether it
faults or not. -/
theorem runCommands_filter_dec {commands : List Instr} {a s : State} (hrel : SameButEncoder a s) (hs : AwaitsCommand s)
    (hc : ∀ i ∈ commands, i.acceptedIn = .ready) :
    ∃ e t, runCommands (commands.filter isDecCommand) a = .next e ∧ runCommands commands s = .next t ∧
      SameButEncoder e t := by
  have ha : AwaitsCommand a := by
    obtain ⟨_, _, _, rfl⟩ := hrel
    exact ⟨hs.ready, hs.idle⟩
  induction commands generalizing a s with
  | nil => exact ⟨a, s, runCommands_nil ha.idle, runCommands_nil hs.idle, hrel⟩
  | cons i rest ih =>
    obtain ⟨hi, hrest⟩ := List.forall_mem_cons.1 hc
    cases hb : commandBody i s with
    | error c =>
      have hd := decode_encode_of_ready hi
      rw [List.filter_cons_of_pos (readyBody_error hi hb).1]
      exact ⟨_, _, runCommands_cons_of_error _ ha.idle (ha.ready.trans hi.symm) hd (hrel.commandBody_error hi hb),
        runCommands_cons_of_error _ hs.idle (hs.ready.trans hi.symm) hd hb, hrel.raise c _⟩
    | ok u =>
      have hu := awaitsCommand_of_readyBody hs hi hb
      rw [runCommands_cons_of_ok rest hs hi hb]
      cases hkeep : isDecCommand i with
      | false =>
        rw [List.filter_cons_of_neg (by simp [hkeep])]
        exact ih (followsKept_decoder.skipped hi hkeep hb hrel) hu hrest ha
      | true =>
        obtain ⟨v, hv, hvu⟩ := followsKept_decoder.kept hkeep hb hrel
        rw [List.filter_cons_of_pos hkeep, runCommands_cons_of_ok _ ha hi hv]
        exact ih hvu hu hrest (awaitsCommand_of_readyBody ha hi hv)

/-- Settles O49: the DEC commands take the groups of `r` one by one and find room for every column exactly when `ceil(M / N)` is at
most `TMAX`; other commands of `READY` change neither the decoder context nor its stream (R65). -/
theorem decodeCommandsDecode : Obligations.DecodeCommandsDecode := by
  unfold Obligations.DecodeCommandsDecode
  intro s r hinv hm hp
  obtain ⟨t, hrun, hfits, hfull⟩ := runCommands_decode r hinv ⟨hm, hp⟩
  refine ⟨fun h => hfits h ▸ hrun, fun h => ?full, fun commands hc hfilter => ?interleaved⟩
  case full =>
    obtain ⟨⟨hfailed, herr, -⟩, hout⟩ := hfull h
    exact ⟨t, hrun, hfailed, herr, hout⟩
  case interleaved =>
    obtain ⟨e, u, he, hu, _, _, _, rfl⟩ := runCommands_filter_dec (.refl s) ⟨hm, hp⟩ hc
    rw [hfilter, hrun, Host.Outcome.next.injEq] at he
    subst he
    refine ⟨u, hu, fun h => ?_, fun h => ?_⟩
    · have ht := hfits h
      exact ⟨(congrArg State.mode ht).trans hm, (congrArg State.err ht :), (congrArg State.decOut ht :)⟩
    · obtain ⟨⟨hfailed, herr, -⟩, hout⟩ := hfull h
      exact ⟨hfailed, herr, hout⟩

end Sys2Proof.Machine
end

section
/-! PROOFS. Family 44_public_operations: the output length laws and the empty inputs (R144, R155, R157). -/

namespace Sys2Proof.Machine

theorem encode_length (c : Codec) (m : List Bit) : (c.encode m).length = m.length * c.numParityBits :=
  encodeFrom_length c 0 m

theorem decode_length (c : Codec) (r : List Bit) : (c.decode r).length = (c.groups r).length := survivor_length c _ _

/-- Settles O50: each input bit gives `N` output bits, and each group of `N` received bits, the last one padded, gives one. -/
theorem outputLengths : Obligations.OutputLengths := by
  unfold Obligations.OutputLengths
  intro c m r hne
  have hn : 1 ≤ c.numParityBits := List.length_pos_iff.2 hne
  exact ⟨encode_length c m, (decode_length c r).trans (groupsOf_spec hn le_rfl).1⟩

/-- Settles O51: no bit gives no output, and no group gives no column to trace back. -/
theorem emptyInputsGiveEmptyOutputs : Obligations.EmptyInputsGiveEmptyOutputs := by
  unfold Obligations.EmptyInputsGiveEmptyOutputs
  refine ⟨fun c => ⟨rfl, rfl⟩, fun s hm hp => ⟨?encode, ?decode⟩⟩
  case encode =>
    exact ⟨s.startEncoder, (runCommands_cons_of_ok (i := .encStart) [] ⟨hm, hp⟩ rfl rfl).trans (runCommands_nil hp), rfl⟩
  case decode =>
    have htrace : commandBody .decTrace s.startDecoder = .ok (traceback s.startDecoder).startDecoder :=
      endDecode_ok.2 ⟨s.startDecoder, flushGroup_ok.2 (.inl ⟨rfl, rfl⟩), rfl⟩
    have hrun : runCommands (decodeCommands []) s = .next (traceback s.startDecoder).startDecoder :=
      calc runCommands (decodeCommands []) s
          = runCommands [.decTrace] s.startDecoder :=
            runCommands_cons_of_ok (i := .decStart) [.decTrace] ⟨hm, hp⟩ rfl rfl
        _ = runCommands [] (traceback s.startDecoder).startDecoder :=
            runCommands_cons_of_ok [] ⟨hm, hp⟩ rfl htrace
        _ = .next (traceback s.startDecoder).startDecoder := runCommands_nil hp
    exact ⟨_, hrun, List.append_nil s.decOut⟩

end Sys2Proof.Machine
end

section
/-! PROOFS. Family 44_public_operations: the round trip (R158, R159). The decoded sequence has the encoding of the message,
whatever the code; an odd polynomial makes the encoding one-to-one, and without one the last bit of the message is not encoded. -/

namespace Sys2Proof.Machine

/-! ### What the newest input bit does to an output (R91, R94) -/

theorem combinedIndex_false (k state : Nat) : combinedIndex k state false = state := by simp [combinedIndex]

/-- The newest input bit is tapped by bit 0 of a polynomial, and the state by the other bits. -/
theorem entry_combinedIndex {k state : Nat} (p : Nat) (hk : 2 ≤ k) (h : state < numStates k) (b : Bit) :
    entry k p (combinedIndex k state b) = xor (p.testBit 0 && b) (entry k p (combinedIndex k state false)) := by
  obtain ⟨j, rfl⟩ : ∃ j, k = j + 1 := ⟨k - 1, by omega⟩
  have htop : ∀ u, (combinedIndex (j + 1) state u).testBit (j + 1 - 1 - 0) = u := fun u =>
    testBit_combinedIndex_top u h
  have hlow : ∀ d < j, (combinedIndex (j + 1) state b).testBit (j + 1 - 1 - (d + 1)) =
      (combinedIndex (j + 1) state false).testBit (j + 1 - 1 - (d + 1)) := fun d hd => by
    rw [testBit_combinedIndex_of_lt _ b (by omega), testBit_combinedIndex_of_lt _ false (by omega)]
  rw [entry_eq_xorBelow p (combinedIndex_lt b (by omega) h), entry_eq_xorBelow p (combinedIndex_lt false (by omega) h),
    xorBelow_succ_first, xorBelow_succ_first, htop, htop, Bool.and_false, Bool.false_xor]
  congr 1
  exact xorBelow_congr fun d hd => by rw [hlow d hd]

/-! ### With an odd polynomial the encoding is one-to-one (R158) -/

/-- An odd polynomial tells the two outputs of a state apart. -/
theorem output_injective {c : Codec} (hk : 2 ≤ c.k) (hodd : ∃ p ∈ c.polys, p % 2 = 1) {state : Nat}
    (h : state < numStates c.k) {b b' : Bit} (heq : c.output state b = c.output state b') : b = b' := by
  obtain ⟨p, hp, hpodd⟩ := hodd
  have htap : p.testBit 0 = true := by rw [Nat.testBit_zero, hpodd]; rfl
  have hentry := List.map_inj_left.1 heq p hp
  rw [entry_combinedIndex p hk h b, entry_combinedIndex p hk h b', htap, Bool.true_and, Bool.true_and] at hentry
  exact Bool.xor_left_inj.1 hentry

/-- Two inputs of one length with one encoding are the same. -/
theorem encodeFrom_injective {c : Codec} (hk : 2 ≤ c.k) (hodd : ∃ p ∈ c.polys, p % 2 = 1) {state : Nat}
    (h : state < numStates c.k) {u v : List Bit} (hlen : u.length = v.length)
    (heq : c.encodeFrom state u = c.encodeFrom state v) : u = v := by
  induction u generalizing state v with
  | nil => exact (List.length_eq_zero_iff.1 hlen.symm).symm
  | cons b u ih =>
    cases v with
    | nil => exact nomatch hlen
    | cons b' v =>
      obtain ⟨hout, hrest⟩ := List.append_inj heq (by rw [codecOutput_length, codecOutput_length])
      obtain rfl := output_injective hk hodd h hout
      rw [ih (nextState_lt b hk h) (Nat.succ.inj hlen) hrest]

/-! ### Without an odd polynomial the last input bit is not encoded (R159) -/

/-- Even polynomials give the two outputs of a state the same bits. -/
theorem output_eq_of_even {c : Codec} (hk : 2 ≤ c.k) (heven : ∀ p ∈ c.polys, p % 2 = 0) {state : Nat}
    (h : state < numStates c.k) (b : Bit) : c.output state b = c.output state false := by
  refine List.map_congr_left fun p hp => ?_
  have htap : p.testBit 0 = false := by rw [Nat.testBit_zero, heven p hp]; rfl
  rw [entry_combinedIndex p hk h b, htap, Bool.false_and, Bool.false_xor]

theorem encode_concat_eq_of_even {c : Codec} (hk : 2 ≤ c.k) (heven : ∀ p ∈ c.polys, p % 2 = 0) (m : List Bit) (b : Bit) :
    c.encode (m ++ [b]) = c.encode (m ++ [false]) := by
  rw [encode_append, encode_append, Codec.encodeFrom, Codec.encodeFrom,
    output_eq_of_even hk heven (stateAfter_lt c hk m) b]
  rfl

/-! ### Decoding an encoding (R154, R155) -/

theorem ceilDiv_mul (m : Nat) {n : Nat} (hn : 1 ≤ n) : ceilDiv (m * n) n = m :=
  Nat.div_eq_of_lt_le (by omega) (by rw [Nat.succ_mul]; omega)

/-- An encoding is whole groups, one for each bit of the message. -/
theorem groups_encode {c : Codec} (hne : c.polys ≠ []) (m : List Bit) :
    (c.groups (c.encode m)).length = m.length ∧ (c.groups (c.encode m)).flatten = c.encode m := by
  have hn : 1 ≤ c.numParityBits := List.length_pos_iff.2 hne
  have hlen := encode_length c m
  obtain ⟨hcount, hflatten⟩ := groupsOf_spec hn (le_refl (c.encode m).length)
  rw [hlen, ceilDiv_mul _ hn] at hcount hflatten
  rw [padGroup_full hlen] at hflatten
  rw [Codec.groups, hlen]
  exact ⟨hcount, hflatten⟩

theorem groups_width (c : Codec) (r : List Bit) : ∀ grp ∈ c.groups r, grp.length = c.polys.length :=
  fun _ => length_of_mem_groupsOf

/-- The distance of an input to the groups of an encoding. -/
theorem distance_groups_encode {c : Codec} (hne : c.polys ≠ []) (m d : List Bit) :
    c.distance (c.groups (c.encode m)) d = hd (c.encode d) (c.encode m) := by
  rw [Codec.distance, (groups_encode hne m).2]

/-- Decoding an encoding selects a state of metric 0 (R145). -/
theorem metricAt_bestState_encode {c : Codec} (hc : c.Valid) (m : List Bit) :
    metricAt (c.forward (c.groups (c.encode m))).1 (bestState c.k (c.forward (c.groups (c.encode m))).1) = .fin 0 ∧
    c.distance (c.groups (c.encode m)) (c.decode (c.encode m)) = 0 := by
  obtain ⟨hmetric, hnearest⟩ := survivor_bestState_nearest c hc.k_ge (groups_width c (c.encode m))
  have hzero := hnearest m (groups_encode hc.polys_ne m).1.symm
  rw [distance_groups_encode hc.polys_ne m m, hd_self, Nat.le_zero] at hzero
  exact ⟨hmetric.trans (congrArg _ hzero), hzero⟩

/-- The decoded sequence has the length and the encoding of the message, whatever the code. -/
theorem encode_decode_encode {c : Codec} (hc : c.Valid) (m : List Bit) :
    (c.decode (c.encode m)).length = m.length ∧ c.encode (c.decode (c.encode m)) = c.encode m := by
  have hlen : (c.decode (c.encode m)).length = m.length :=
    (decode_length c _).trans (groups_encode hc.polys_ne m).1
  have hdist := (metricAt_bestState_encode hc m).2
  rw [distance_groups_encode hc.polys_ne] at hdist
  exact ⟨hlen, eq_of_hd_eq_zero (by rw [encode_length, encode_length, hlen]) hdist⟩

/-- The decoded sequence leads to the state the final scan selects (R141). -/
theorem stateAfter_decode_encode {c : Codec} (hc : c.Valid) (m : List Bit) :
    c.stateAfter (c.decode (c.encode m)) = bestState c.k (c.forward (c.groups (c.encode m))).1 :=
  (survivor_spec c hc.k_ge (groups_width c (c.encode m)) (bestState_firstMinimum c.k _).1
    (metricAt_bestState_encode hc m).1).1

/-- No state below the one selected has an input at distance 0: the final scan takes the lowest state (R141). -/
theorem stateAfter_decode_encode_le {c : Codec} (hc : c.Valid) {m d : List Bit} (hlen : d.length = m.length)
    (hencode : c.encode d = c.encode m) : c.stateAfter (c.decode (c.encode m)) ≤ c.stateAfter d := by
  rw [stateAfter_decode_encode hc]
  by_contra hlower
  obtain ⟨-, -, hfirst⟩ := bestState_firstMinimum c.k (c.forward (c.groups (c.encode m))).1
  have hstrict := hfirst _ (Nat.not_le.1 hlower)
  rw [(metricAt_bestState_encode hc m).1, ltInf_iff] at hstrict
  have hmetric := metric_stateAfter_le_distance c hc.k_ge (groups_width c (c.encode m))
    (hlen.trans (groups_encode hc.polys_ne m).1.symm)
  rw [distance_groups_encode hc.polys_ne, hencode, hd_self, hstrict] at hmetric
  exact nomatch hmetric

/-- Of the two next states the one of input 0 is the lower (R92). -/
theorem nextState_false_lt_true {k state : Nat} (hk : 2 ≤ k) (h : state < numStates k) :
    nextState k state false < nextState k state true := by
  have := Nat.two_pow_pos (k - 2)
  rw [nextState_eq false hk h, nextState_eq true hk h]
  simp

/-- Settles O53: a decoded sequence has the encoding of its message, and one message only has it when a polynomial is odd; else
the message with its last bit 0 has the same encoding and leads to a lower state, which the final scan prefers. -/
theorem roundTripExactlyForOddPolynomials : Obligations.RoundTripExactlyForOddPolynomials := by
  unfold Obligations.RoundTripExactlyForOddPolynomials
  refine fun c hc => ⟨fun hodd m => ?roundTrip, fun heven m hsame => ?fails⟩
  case roundTrip =>
    obtain ⟨hlen, hencode⟩ := encode_decode_encode hc m
    exact encodeFrom_injective hc.k_ge hodd (numStates_pos c.k) hlen hencode
  case fails =>
    have hencode := encode_concat_eq_of_even hc.k_ge heven m true
    have hle := stateAfter_decode_encode_le hc (m := m ++ [true]) (d := m ++ [false]) (by simp) hencode.symm
    rw [hsame, stateAfter_concat, stateAfter_concat] at hle
    exact hle.not_gt (nextState_false_lt_true hc.k_ge (stateAfter_lt c hc.k_ge m))

end Sys2Proof.Machine
end

section
/-! PROOFS. Family 60_exceptions: which words the block ignores and which raise a fault (R173, R175, R178, R179), and that a fault
writes nothing but `MODE`, `ERR` and `ERRCMD` (R176). -/

namespace Sys2Proof.Machine

/-! ### In `FAILED` (R179) -/

/-- A move of the host other than a reset changes nothing in `FAILED`. -/
theorem runMove_failed {move : HostMove} {s : State} (hf : s.mode = .failed) (hmove : move ≠ .reset) :
    runMove move s = .next s := by
  cases move with
  | command w => exact runWord_failed hf w
  | read => rfl
  | reset => exact absurd rfl hmove

/-- In `FAILED` a step only takes the next move, unless that is a reset. -/
theorem step_failed {move : HostMove} {later : List HostMove} {s : State} (hf : s.mode = .failed)
    (hp : s.pending = move :: later) (hmove : move ≠ .reset) : step s = .next { s with pending := later } :=
  (step_move hp).trans (runMove_failed hf hmove)

/-- Steps in `FAILED` only take moves, as long as no reset is among them. -/
theorem runSteps_failed {count : Nat} {s : State} (hf : s.mode = .failed) (hreset : HostMove.reset ∉ s.pending.take count) :
    runSteps count s = .next { s with pending := s.pending.drop count } := by
  induction count generalizing s with
  | zero => rfl
  | succ count ih =>
    cases hp : s.pending with
    | nil =>
      have hrest := ih hf (by rw [hp, List.take_nil]; exact List.not_mem_nil)
      rw [runSteps, step_idle hp, List.drop_nil]
      rwa [hp, List.drop_nil] at hrest
    | cons move later =>
      rw [hp, List.take_succ_cons, List.mem_cons, not_or] at hreset
      obtain ⟨hmove, hlater⟩ := hreset
      rw [runSteps, step_failed hf hp (Ne.symm hmove)]
      exact ih hf hlater

/-- Settles O8, by induction on the number of steps: each takes one move, which is a word or a read and is ignored. -/
theorem failedIgnoresWordsUntilReset : Obligations.FailedIgnoresWordsUntilReset := by
  unfold Obligations.FailedIgnoresWordsUntilReset
  exact ⟨fun s w later hp hf => step_failed hf hp nofun, fun s count hf hreset => runSteps_failed hf hreset⟩

/-! ### Words that are illegal or come in another mode (R173, R175) -/

/-- Settles O7: taking the move leads to the fault entry of `ILLEGAL_COMMAND`. -/
theorem illegalWordRaises : Obligations.IllegalWordRaises := by
  unfold Obligations.IllegalWordRaises
  intro s w later e hp he hf
  rw [step_move hp]
  exact runWord_of_illegal he hf

/-- Settles O14: the mode is the first check of every command. -/
theorem wrongModeRaises : Obligations.WrongModeRaises := by
  unfold Obligations.WrongModeRaises
  intro s hf
  have hwrong {i : Instr} (hm : s.mode ≠ i.acceptedIn) : exec i s = .next (faulted 6 (encode i) s) := exec_of_wrongMode hf hm
  exact ⟨fun hm _ => hwrong hm, fun hm _ => hwrong hm, fun hm => hwrong hm,
    fun hm => ⟨hwrong hm, hwrong hm, fun _ => hwrong hm, hwrong hm, fun _ => hwrong hm, hwrong hm, hwrong hm⟩⟩

/-! ### The order of the checks on a word (R178) -/

/-- A legal word of another mode is what `ERRCMD` takes (R175, R176): it is the encoding of the command it spells. -/
theorem runWord_of_wrongMode {w : Word} {i : Instr} {s : State} (hd : decode w = .command i) (hf : s.mode ≠ .failed)
    (hm : s.mode ≠ i.acceptedIn) : runWord w s = .next (faulted 6 w s) := by
  rw [runWord_of_command hd, exec_of_wrongMode hf hm, (encodeOfDecode w i hd).2]

theorem runWord_of_error {w : Word} {i : Instr} {s : State} {c : Cause} (hd : decode w = .command i)
    (hm : s.mode = i.acceptedIn) (hb : commandBody i s = .error c) : runWord w s = .next (faulted c.code w s) := by
  rw [runWord_of_command hd, exec_of_error hm hb, (encodeOfDecode w i hd).2]

theorem runWord_of_ok {w : Word} {i : Instr} {s t : State} (hd : decode w = .command i) (hm : s.mode = i.acceptedIn)
    (hb : commandBody i s = .ok t) : runWord w s = .next t := by
  rw [runWord_of_command hd, exec_of_ok hm hb]

/-- Settles O16: the word, then the mode, then the checks of each command in the order of its pseudocode. -/
theorem checksComeInOrder : Obligations.ChecksComeInOrder := by
  unfold Obligations.ChecksComeInOrder
  refine fun w s => ⟨fun hf => runWord_failed hf w, fun hf ⟨_, he⟩ => runWord_of_illegal he hf,
    fun hf _ hd hm => runWord_of_wrongMode hd hf hm,
    fun hm _ hd hbad => runWord_of_error hd hm (commandBody_cfgBegin_badConstraint hbad),
    fun hm p hd => ⟨fun h0 => ?zero, fun _ hp => runWord_of_error hd hm (commandBody_cfgPoly_tooWide hp),
      fun h0 hp hfull => runWord_of_error hd hm (commandBody_cfgPoly_full h0 hp hfull)⟩,
    fun hm hd hn => runWord_of_error hd hm (commandBody_cfgCommit_empty hn),
    fun hm b hd => ⟨fun hshort => ?stored, fun hlast hfull => ?full⟩,
    fun hm hd => ⟨fun hempty => ?nothingPending, fun hgroup hfull => ?padded⟩⟩
  case zero => subst h0; exact runWord_of_error hd hm (commandBody_cfgPoly_zero s)
  case stored => exact ⟨_, runWord_of_ok hd hm (receiveBit_ok.2 (.inl ⟨hshort, rfl⟩)), hm⟩
  case full => exact runWord_of_error hd hm (receiveBit_error.2 ⟨hlast, hfull, rfl⟩)
  case nothingPending =>
    have hflush : flushGroup s = .ok s := flushGroup_ok.2 (.inl ⟨hempty, rfl⟩)
    rcases hd with hd | hd
    · exact ⟨_, runWord_of_ok hd hm hflush, hm⟩
    · exact ⟨_, runWord_of_ok hd hm (endDecode_ok.2 ⟨s, hflush, rfl⟩), hm⟩
  case padded =>
    rcases hd with hd | hd
    · exact runWord_of_error hd hm (commandBody_decFlush_full hgroup hfull)
    · exact runWord_of_error hd hm (commandBody_decTrace_full hgroup hfull)

/-! ### What a fault writes (R176) -/

/-- A command whose checks pass does not enter `FAILED`. -/
theorem commandBody_ne_failed {i : Instr} {s t : State} (hf : s.mode ≠ .failed) (h : commandBody i s = .ok t) :
    t.mode ≠ .failed := by
  rcases commandBody_mode h with hsame | ⟨k, -, ht⟩ | ⟨-, ht⟩
  · exact hsame ▸ hf
  · exact ht ▸ nofun
  · exact ht ▸ nofun

/-- Settles O15: a command enters `FAILED` through a fault entry only, in another mode than its own or from its own checks. -/
theorem faultEntryIsPrecise : Obligations.FaultEntryIsPrecise := by
  unfold Obligations.FaultEntryIsPrecise
  intro i s t h hf ht
  rcases exec_cases h with ⟨hfailed, -⟩ | ⟨-, -, hwrong⟩ | ⟨-, -, hb⟩ | ⟨-, -, c, -, herror⟩
  · exact absurd hfailed hf
  · exact ⟨_, Cause.code_ne_zero .wrongMode, hwrong⟩
  · exact absurd ht (commandBody_ne_failed hf hb)
  · exact ⟨_, c.code_ne_zero, herror⟩

end Sys2Proof.Machine
end

section
/-! PROOFS. Family 60_exceptions: when a command raises `CAPACITY` (R174). -/

namespace Sys2Proof.Machine

/-- The command is accepted and passes its checks but needs an element more than `NMAX` or `TMAX` leaves room for (R174). -/
def FindsNoRoom (i : Instr) (s : State) : Prop :=
  (∃ p, i = .cfgPoly p ∧ s.mode = .configuring ∧ p ≠ 0 ∧ p < 2 ^ s.k ∧ s.config.nmax = .atMost s.n) ∨
  (s.mode = .ready ∧ s.config.tmax = .atMost s.tr.length ∧
    ((∃ b, i = .decBit b ∧ s.n ≤ s.gb.length + 1) ∨ ((i = .decFlush ∨ i = .decTrace) ∧ s.gb ≠ [])))

/-- A command's own checks name `CAPACITY` exactly when it finds no room. -/
theorem findsNoRoom_iff {i : Instr} {s : State} :
    FindsNoRoom i s ↔ s.mode = i.acceptedIn ∧ commandBody i s = .error .capacity := by
  constructor
  · rintro (⟨p, rfl, hm, h0, hp, hfull⟩ | ⟨hm, hfull, ⟨b, rfl, hlast⟩ | ⟨rfl | rfl, hgroup⟩⟩)
    · exact ⟨hm, commandBody_cfgPoly_full h0 hp hfull⟩
    · exact ⟨hm, receiveBit_error.2 ⟨hlast, hfull, rfl⟩⟩
    · exact ⟨hm, commandBody_decFlush_full hgroup hfull⟩
    · exact ⟨hm, commandBody_decTrace_full hgroup hfull⟩
  · rintro ⟨hm, hb⟩
    have herr := commandBody_error hb
    cases i with
    | cfgPoly p =>
      obtain ⟨hc, -⟩ | ⟨hc, -⟩ | ⟨-, h0, hp, hfull⟩ := herr
      · nomatch hc
      · nomatch hc
      · exact .inl ⟨p, rfl, hm, h0, hp, hfull⟩
    | decBit b => exact .inr ⟨hm, herr.2.2, .inl ⟨b, rfl, herr.2.1⟩⟩
    | decFlush => exact .inr ⟨hm, herr.2.2, .inr ⟨.inl rfl, herr.2.1⟩⟩
    | decTrace => exact .inr ⟨hm, herr.2.2, .inr ⟨.inr rfl, herr.2.1⟩⟩
    | cfgBegin k => nomatch herr.1
    | cfgCommit => nomatch herr.1
    | cfgNpar => exact herr.elim
    | encStart => exact herr.elim
    | encBit b => exact herr.elim
    | decStart => exact herr.elim

/-- Where `NMAX` and `TMAX` are unbounded there is room for every element (R9, R174). -/
theorem not_findsNoRoom_of_unbounded {i : Instr} {s : State} (hnmax : s.config.nmax = .unbounded)
    (htmax : s.config.tmax = .unbounded) : ¬ FindsNoRoom i s := by
  rintro (⟨_, _, _, _, _, hfull⟩ | ⟨_, hfull, _⟩)
  · exact nomatch hnmax.symm.trans hfull
  · exact nomatch htmax.symm.trans hfull

theorem Cause.code_eq_seven_iff {c : Cause} : c.code = 7 ↔ c = .capacity := by
  cases c <;> decide

/-- A command whose checks pass leaves `ERR`. -/
theorem commandBody_err {i : Instr} {s t : State} (h : commandBody i s = .ok t) : t.err = s.err := by
  by_cases hi : i.acceptedIn = .ready
  · obtain ⟨_, _, _, _, _, _, _, -, rfl⟩ := readyBody_frame hi h
    rfl
  · have hok := commandBody_ok h
    cases i with
    | cfgBegin k => obtain ⟨-, -, rfl⟩ := hok; rfl
    | cfgPoly p => obtain ⟨-, -, -, rfl⟩ := hok; rfl
    | cfgCommit => obtain ⟨-, rfl⟩ := hok; rfl
    | _ => exact absurd rfl hi

/-- `ERR` tells `CAPACITY` from the absence of a fault and from every other cause (R170). -/
theorem exec_err_eq_seven_iff {i : Instr} {s t : State} (hf : s.mode ≠ .failed) (herr : s.err = 0)
    (h : exec i s = .next t) : t.err = 7 ↔ FindsNoRoom i s := by
  rw [findsNoRoom_iff]
  rcases exec_cases h with ⟨hfailed, -⟩ | ⟨-, hm, rfl⟩ | ⟨-, -, hb⟩ | ⟨-, hm, c, hb, rfl⟩
  · exact absurd hfailed hf
  · rw [raise_err, Cause.code_eq_seven_iff]
    exact iff_of_false nofun fun hroom => hm hroom.1
  · rw [commandBody_err hb, herr, hb]
    exact iff_of_false (by decide) fun hroom => nomatch hroom.2
  · rw [raise_err, Cause.code_eq_seven_iff, hb, Except.error.injEq]
    exact (and_iff_right hm).symm

/-- Settles O18: code 7 tells a command that found no room, and without bounds there always is room. -/
theorem capacityExactlyWhenFull : Obligations.CapacityExactlyWhenFull := by
  unfold Obligations.CapacityExactlyWhenFull
  intro i s t hf herr h
  have hiff := exec_err_eq_seven_iff hf herr h
  exact ⟨hiff, fun hnmax htmax => hiff.not.2 (not_findsNoRoom_of_unbounded hnmax htmax)⟩

end Sys2Proof.Machine
end

section
/-! PROOFS. Family 70_reset_and_hazards: what a reset leaves (R190 to R192), that every move issued is taken (R202, R203), and that
what reset leaves unspecified is never seen (R193). -/

namespace Sys2Proof.Machine

/-! ### Reset and the end of a run -/

/-- Settles O10: the state after reset is written out with these values. -/
theorem resetValues : Obligations.ResetValues := by
  unfold Obligations.ResetValues
  exact fun c => ⟨rfl, rfl, rfl, rfl, rfl, rfl, rfl⟩

/-- Settles O9: a reset is a move whose effect does not depend on the mode. -/
theorem resetMoveResets : Obligations.ResetMoveResets := by
  unfold Obligations.ResetMoveResets
  exact fun s later hp => ⟨hostReset { s with pending := later }, step_move hp, rfl, rfl, rfl, rfl, rfl, rfl, rfl, rfl⟩

/-- Settles O12: a run never stops, and a run of as many steps as moves were issued takes them all. -/
theorem everyIssuedMoveIsTaken : Obligations.EveryIssuedMoveIsTaken := by
  unfold Obligations.EveryIssuedMoveIsTaken
  intro s
  obtain ⟨t, ht⟩ := runSteps_isNext s.pending.length s
  exact ⟨t, ht, by rw [runSteps_pending ht, List.drop_length]⟩

/-! ### The state with everything cleared that no command reads before it is written (R193) -/

/-- The state with every register cleared whose value reset leaves unspecified (R193). -/
def State.bare (s : State) : State :=
  { s with k := 0, n := 0, g := [], out := [], es := 0, gb := [], pm := [], tr := [] }

/-- The state with everything cleared that no command reads before it is written (R193). Of the registers that reset leaves
unspecified nothing is kept in `UNCONFIGURED`, where CFG.BEGIN reads none, and in `FAILED`, where no word is executed; `K`, `N` and
`G[0..N-1]` are kept in `CONFIGURING`; and all but `G` in `READY`, where `OUT` has taken its place. -/
def State.masked (s : State) : State :=
  match s.mode with
  | .unconfigured | .failed => s.bare
  | .configuring => { s.bare with k := s.k, n := s.n, g := s.polys }
  | .ready => { s with g := [] }

theorem masked_of_unconfigured {s : State} (h : s.mode = .unconfigured) : s.masked = s.bare := by
  rw [State.masked, h]

theorem masked_of_configuring {s : State} (h : s.mode = .configuring) :
    s.masked = { s.bare with k := s.k, n := s.n, g := s.polys } := by
  rw [State.masked, h]

theorem masked_of_ready {s : State} (h : s.mode = .ready) : s.masked = { s with g := [] } := by
  rw [State.masked, h]

theorem masked_setG {s : State} (h : s.mode = .ready) (g : List Nat) :
    { s with g := g }.masked = s.masked := by
  rw [masked_of_ready h]
  exact masked_of_ready h

@[simp] theorem masked_mode (s : State) : s.masked.mode = s.mode := by
  unfold State.masked; split <;> rfl

@[simp] theorem masked_config (s : State) : s.masked.config = s.config := by
  unfold State.masked; split <;> rfl

@[simp] theorem masked_pending (s : State) : s.masked.pending = s.pending := by
  unfold State.masked; split <;> rfl

/-- Nothing the host reads is cleared (R12). -/
@[simp] theorem masked_observe (s : State) : s.masked.observe = s.observe := by
  unfold State.masked; split <;> rfl

@[simp] theorem masked_bare (s : State) : s.masked.bare = s.bare := by
  unfold State.masked; split <;> rfl

theorem masked_setPending (moves : List HostMove) (s : State) :
    { s with pending := moves }.masked = { s.masked with pending := moves } := by
  obtain ⟨_ | _ | _ | _⟩ := s <;> rfl

/-! ### No command reads what is cleared (R193) -/

section NoPolynomials
variable (g : List Nat) (s : State)

theorem consumeGroup_setG (grp : List Bit) :
    consumeGroup grp { s with g := g } = (consumeGroup grp s).map fun t => { t with g := g } := by
  simp only [consumeGroup, trellisStep]
  split_ifs <;> rfl

theorem flushGroup_setG : flushGroup { s with g := g } = (flushGroup s).map fun t => { t with g := g } := by
  unfold flushGroup
  split
  · exact consumeGroup_setG g s _
  · rfl

/-- The commands of `READY` look the code up in `OUT` and do not read or write `G` (R93, R100). -/
theorem readyBody_setG {i : Instr} (hi : i.acceptedIn = .ready) :
    commandBody i { s with g := g } = (commandBody i s).map fun t => { t with g := g } := by
  cases i with
  | cfgBegin k => nomatch hi
  | cfgPoly p => nomatch hi
  | cfgCommit => nomatch hi
  | cfgNpar => rfl
  | encStart => rfl
  | encBit b => rfl
  | decStart => rfl
  | decBit b =>
    simp only [commandBody, receiveBit]
    split
    · rfl
    · exact consumeGroup_setG g s _
  | decFlush => exact flushGroup_setG g s
  | decTrace =>
    simp only [commandBody, endDecode, flushGroup_setG]
    cases flushGroup s <;> rfl

end NoPolynomials

theorem readyBody_masked {i : Instr} {s : State} (hi : i.acceptedIn = .ready) (hm : s.mode = .ready) :
    (commandBody i s.masked).map State.masked = (commandBody i s).map State.masked := by
  rw [masked_of_ready hm, readyBody_setG _ _ hi]
  cases hb : commandBody i s with
  | error c => rfl
  | ok t =>
    have ht : t.mode = .ready := by
      obtain ⟨_, _, _, _, _, _, _, -, rfl⟩ := readyBody_frame hi hb
      exact hm
    exact congrArg Except.ok (masked_setG ht [])

/-- CFG.BEGIN writes `K` and `N` without reading them (R95, R193). -/
theorem beginConfig_masked {s : State} (hm : s.mode = .unconfigured) (k : Nat) :
    (beginConfig k s.masked).map State.masked = (beginConfig k s).map State.masked := by
  simp only [beginConfig, masked_config]
  split
  · rfl
  · rw [masked_of_unconfigured hm]
    rfl

section Configuring
variable {s : State} (hm : s.mode = .configuring)
include hm

theorem masked_k : s.masked.k = s.k := by rw [masked_of_configuring hm]

theorem masked_n : s.masked.n = s.n := by rw [masked_of_configuring hm]

theorem masked_polys : s.masked.polys = s.polys := by
  rw [masked_of_configuring hm]
  exact (List.take_take ..).trans (by rw [Nat.min_self]; rfl)

theorem masked_appendPoly (p : Nat) : (s.masked.appendPoly p).masked = (s.appendPoly p).masked := by
  have hlater : (s.appendPoly p).mode = .configuring := hm
  rw [masked_of_configuring hlater, State.appendPoly, masked_polys hm, masked_of_configuring hm]
  exact masked_of_configuring hm

/-- CFG.POLY reads `K` and `N`, and of `G` what it keeps (R96, R193). -/
theorem addPoly_masked (p : Nat) : (addPoly p s.masked).map State.masked = (addPoly p s).map State.masked := by
  simp only [addPoly, masked_k hm, masked_n hm, masked_config]
  split_ifs
  · rfl
  · rfl
  · rfl
  · exact congrArg Except.ok (masked_appendPoly hm p)

/-- CFG.COMMIT reads `K`, `N` and `G[0..N-1]` and writes all that the commands of `READY` read (R98, R193). -/
theorem commitConfig_masked : (commitConfig s.masked).map State.masked = (commitConfig s).map State.masked := by
  simp only [commitConfig, masked_n hm, masked_k hm, masked_polys hm]
  split
  · rfl
  · rw [masked_of_configuring hm]
    rfl

end Configuring

/-- A command in its mode names the same cause, or ends in a state that differs in what is cleared only, whatever the registers held
that nothing has written yet (R193). -/
theorem commandBody_masked {i : Instr} {s : State} (hm : s.mode = i.acceptedIn) :
    (commandBody i s.masked).map State.masked = (commandBody i s).map State.masked := by
  by_cases hi : i.acceptedIn = .ready
  · exact readyBody_masked hi (hm.trans hi)
  · cases i with
    | cfgBegin k => exact beginConfig_masked hm k
    | cfgPoly p => exact addPoly_masked hm p
    | cfgCommit => exact commitConfig_masked hm
    | _ => exact absurd rfl hi

/-! ### Runs from states that differ in what is cleared only -/

/-- Two states that differ, if at all, in what is written before the next command reads it (R193). -/
def SameToHost (s t : State) : Prop := s.masked = t.masked

/-- Both answer a next state, and these are the same to the host. -/
def AnswerAlike (a b : Host.Outcome State Fault Refusal) : Prop := ∃ s t, a = .next s ∧ b = .next t ∧ SameToHost s t

section Alike
variable {s t : State} (h : SameToHost s t)
include h

theorem SameToHost.mode_eq : s.mode = t.mode := by
  rw [← masked_mode s, h, masked_mode]

theorem SameToHost.config_eq : s.config = t.config := by
  rw [← masked_config s, h, masked_config]

theorem SameToHost.pending_eq : s.pending = t.pending := by
  rw [← masked_pending s, h, masked_pending]

theorem SameToHost.observe_eq : s.observe = t.observe := by
  rw [← masked_observe s, h, masked_observe]

theorem SameToHost.setPending (moves : List HostMove) :
    SameToHost { s with pending := moves } { t with pending := moves } := by
  rw [SameToHost, masked_setPending moves s, masked_setPending moves t, h]

theorem SameToHost.raise (c : Cause) (w : Word) : SameToHost (raise c w s) (raise c w t) := by
  have hbare : s.bare = t.bare := by rw [← masked_bare s, h, masked_bare]
  exact congrArg (Machine.raise c w) hbare

theorem SameToHost.hostReset_eq : hostReset s = hostReset t := by
  rw [hostReset, hostReset, h.config_eq, h.pending_eq]

theorem SameToHost.exec (i : Instr) : AnswerAlike (exec i s) (exec i t) := by
  have hmode := h.mode_eq
  rw [exec_eq_runCommand, exec_eq_runCommand]
  by_cases hf : s.mode = .failed
  · exact ⟨s, t, runCommand_failed hf, runCommand_failed (hmode ▸ hf), h⟩
  by_cases hm : s.mode = i.acceptedIn
  · have hbody : (commandBody i s).map State.masked = (commandBody i t).map State.masked := by
      rw [← commandBody_masked hm, h, commandBody_masked (hmode ▸ hm)]
    cases hs : commandBody i s with
    | ok u =>
      cases ht : commandBody i t with
      | ok v =>
        rw [hs, ht] at hbody
        exact ⟨u, v, runCommand_ok hm hs, runCommand_ok (hmode ▸ hm) ht, Except.ok.inj hbody⟩
      | error d => rw [hs, ht] at hbody; nomatch hbody
    | error c =>
      cases ht : commandBody i t with
      | ok v => rw [hs, ht] at hbody; nomatch hbody
      | error d =>
        rw [hs, ht] at hbody
        cases Except.error.inj hbody
        exact ⟨_, _, runCommand_error hm hs, runCommand_error (hmode ▸ hm) ht, h.raise c _⟩
  · exact ⟨_, _, runCommand_wrongMode hf hm, runCommand_wrongMode (hmode ▸ hf) (hmode ▸ hm), h.raise .wrongMode _⟩

theorem SameToHost.runIllegal (w : Word) : AnswerAlike (runIllegal w s) (runIllegal w t) := by
  have hmode := h.mode_eq
  by_cases hf : s.mode = .failed
  · exact ⟨s, t, if_pos hf, if_pos (hmode ▸ hf), h⟩
  · exact ⟨_, _, if_neg hf, if_neg (hmode ▸ hf), h.raise .illegalCommand w⟩

theorem SameToHost.runMove (move : HostMove) : AnswerAlike (runMove move s) (runMove move t) := by
  cases move with
  | read => exact ⟨s, t, rfl, rfl, h⟩
  | reset => exact ⟨hostReset s, hostReset t, rfl, rfl, congrArg State.masked h.hostReset_eq⟩
  | command w =>
    simp only [Machine.runMove, runWord]
    cases decode w with
    | command i => exact h.exec i
    | illegal e => exact h.runIllegal w

theorem SameToHost.step : AnswerAlike (step s) (step t) := by
  cases hp : s.pending with
  | nil => exact ⟨s, t, step_idle hp, step_idle (h.pending_eq ▸ hp), h⟩
  | cons move later =>
    rw [step_move hp, step_move (h.pending_eq ▸ hp)]
    exact (h.setPending later).runMove move

end Alike

theorem SameToHost.runSteps {s t : State} (h : SameToHost s t) (count : Nat) :
    AnswerAlike (runSteps count s) (runSteps count t) := by
  induction count generalizing s t with
  | zero => exact ⟨s, t, rfl, rfl, h⟩
  | succ count ih =>
    obtain ⟨u, v, hs, ht, huv⟩ := h.step
    simp only [Machine.runSteps, hs, ht]
    exact ih huv

/-- In `UNCONFIGURED` all that reset leaves unspecified is cleared, and the host sees the rest (R12, R193). -/
theorem sameToHost_of_unconfigured {s t : State} (hs : s.mode = .unconfigured) (ht : t.mode = .unconfigured)
    (hobserve : s.observe = t.observe) (hconfig : s.config = t.config) (hpending : s.pending = t.pending) :
    SameToHost s t := by
  simp only [State.observe, Observation.mk.injEq] at hobserve
  obtain ⟨-, herr, herrcmd, hres, henc, hdec⟩ := hobserve
  rw [SameToHost, masked_of_unconfigured hs, masked_of_unconfigured ht, State.bare, State.bare, hs, ht, herr, herrcmd, hres,
    henc, hdec, hconfig, hpending]

/-- Settles O44: two such states differ in what is cleared only, every step keeps that, and the host sees none of it. -/
theorem unspecifiedResetValuesAreNeverSeen : Obligations.UnspecifiedResetValuesAreNeverSeen := by
  unfold Obligations.UnspecifiedResetValuesAreNeverSeen
  intro s t hs ht hobserve hconfig hpending count
  obtain ⟨s', t', hs', ht', h⟩ := (sameToHost_of_unconfigured hs ht hobserve hconfig hpending).runSteps count
  exact ⟨s', t', hs', ht', h.observe_eq⟩

end Sys2Proof.Machine
end
